-- ==== Sys2Proof/Word.lean ====
section
/-! DEFINITION. The word types of the core and its register and key indices (spec/00_scope.md R11, R12). -/

namespace Sys2Proof

/-- One byte: a general register, a timer, a memory byte, an 8-bit immediate. -/
abbrev Byte := BitVec 8

/-- One 16-bit word: an instruction word, I, PC, a stack entry. -/
abbrev Word := BitVec 16

/-- The index of a general register, 0..15 (spec/10_state.md R21). -/
abbrev Reg := Fin 16

/-- The index of a key, 0..15 (spec/10_state.md R31). -/
abbrev Key := Fin 16

/-- The flag register VF is V[15] (spec/00_scope.md R12). -/
abbrev regF : Reg := 15

/-- The register V0, which `Bnnn` adds when jump_add_offset is off (spec/41_control_flow.md R140). -/
abbrev reg0 : Reg := 0

end Sys2Proof
end

