-- ==== Sys2Proof/Syntax.lean ====
section
/-! DEFINITION. The instructions: one constructor per row of spec/opcode_table.json, in the table's order
(spec/30_encoding.md R93). Register operands are indices 0..15, immediates are unsigned bit fields (R92), so a
register or an immediate out of range cannot be written. -/

namespace Sys2Proof

inductive Instr where
  /-- `00E0` CLS: clear screen. -/
  | cls
  /-- `00EE` RET: subroutine return. -/
  | ret
  /-- `1nnn` JP nnn: jump. -/
  | jp (nnn : BitVec 12)
  /-- `2nnn` CALL nnn: call subroutine. -/
  | call (nnn : BitVec 12)
  /-- `3xnn` SE Vx, nn: skip if equal. -/
  | seImm (x : Reg) (nn : Byte)
  /-- `4xnn` SNE Vx, nn: skip if not equal. -/
  | sneImm (x : Reg) (nn : Byte)
  /-- `5xy0` SE Vx, Vy: skip if registers equal. -/
  | seReg (x y : Reg)
  /-- `6xnn` LD Vx, nn: set register to immediate. -/
  | ldImm (x : Reg) (nn : Byte)
  /-- `7xnn` ADD Vx, nn: add immediate, no flag. -/
  | addImm (x : Reg) (nn : Byte)
  /-- `8xy0` LD Vx, Vy: register set. -/
  | ldReg (x y : Reg)
  /-- `8xy1` OR Vx, Vy. -/
  | orReg (x y : Reg)
  /-- `8xy2` AND Vx, Vy. -/
  | andReg (x y : Reg)
  /-- `8xy3` XOR Vx, Vy. -/
  | xorReg (x y : Reg)
  /-- `8xy4` ADD Vx, Vy: add, VF is the carry. -/
  | addReg (x y : Reg)
  /-- `8xy5` SUB Vx, Vy: V[x] - V[y], VF is no borrow. -/
  | subReg (x y : Reg)
  /-- `8xy6` SHR Vx, Vy: shift right by one. -/
  | shrReg (x y : Reg)
  /-- `8xy7` SUBN Vx, Vy: V[y] - V[x], VF is no borrow. -/
  | subnReg (x y : Reg)
  /-- `8xyE` SHL Vx, Vy: shift left by one. -/
  | shlReg (x y : Reg)
  /-- `9xy0` SNE Vx, Vy: skip if registers differ. -/
  | sneReg (x y : Reg)
  /-- `Annn` LD I, nnn: set the index register. -/
  | ldI (nnn : BitVec 12)
  /-- `Bnnn` JP V0, nnn: jump with offset. The row has the two overlapping fields nnn = w[11:0] and x = w[11:8]. -/
  | jpV0 (nnn : BitVec 12) (x : Reg)
  /-- `Cxnn` RND Vx, nn: random byte masked by nn. -/
  | rnd (x : Reg) (nn : Byte)
  /-- `Dxyn` DRW Vx, Vy, n: draw a sprite of n rows. -/
  | drw (x y : Reg) (n : BitVec 4)
  /-- `Ex9E` SKP Vx: skip if key down. -/
  | skp (x : Reg)
  /-- `ExA1` SKNP Vx: skip if key up. -/
  | sknp (x : Reg)
  /-- `Fx07` LD Vx, DT: get delay timer. -/
  | ldVxDt (x : Reg)
  /-- `Fx0A` LD Vx, K: wait for key. -/
  | ldVxK (x : Reg)
  /-- `Fx15` LD DT, Vx: set delay timer. -/
  | ldDtVx (x : Reg)
  /-- `Fx18` LD ST, Vx: set sound timer. -/
  | ldStVx (x : Reg)
  /-- `Fx1E` ADD I, Vx: add to index. -/
  | addI (x : Reg)
  /-- `Fx29` LD F, Vx: set index to a font glyph address. -/
  | ldF (x : Reg)
  /-- `Fx33` LD B, Vx: store three decimal digits. -/
  | ldB (x : Reg)
  /-- `Fx55` LD [I], Vx: store V0..Vx. -/
  | ldMemVx (x : Reg)
  /-- `Fx65` LD Vx, [I]: load V0..Vx. -/
  | ldVxMem (x : Reg)
deriving DecidableEq, Repr

end Sys2Proof
end

