-- ==== Sys2Proof/WellFormed.lean ====
section
/-! DEFINITION. When an instruction is well formed. The operand types already bound every register index and every
immediate (spec/30_encoding.md R92); what is left is the one row of the opcode table with overlapping fields. -/

namespace Sys2Proof

/-- The high nibble of a 12-bit immediate, nnn[11:8]: the register `Bnnn` names (spec/41_control_flow.md R140). -/
def highNibble (nnn : BitVec 12) : Reg := (nnn.extractLsb' 8 4).toFin

/-- An instruction is well formed when its fields can stand in one word: `Bnnn`'s x is nnn[11:8] (R140), and every
other instruction's fields are disjoint and bounded by their types. -/
def Instr.wellFormed : Instr → Bool
  | .jpV0 nnn x => decide (x = highNibble nnn)
  | .cls | .ret | .jp _ | .call _ | .seImm _ _ | .sneImm _ _ | .seReg _ _ | .ldImm _ _ | .addImm _ _ | .ldReg _ _
  | .orReg _ _ | .andReg _ _ | .xorReg _ _ | .addReg _ _ | .subReg _ _ | .shrReg _ _ | .subnReg _ _ | .shlReg _ _
  | .sneReg _ _ | .ldI _ | .rnd _ _ | .drw _ _ _ | .skp _ | .sknp _ | .ldVxDt _ | .ldVxK _ | .ldDtVx _ | .ldStVx _
  | .addI _ | .ldF _ | .ldB _ | .ldMemVx _ | .ldVxMem _ => true

end Sys2Proof
end

