-- ==== Sys2Proof/Config.lean ====
section
/-! DEFINITION. What an instance is configured with (spec/00_scope.md R9, spec/10_state.md R34) and the free values
of the model: what the spec leaves open, as constants without a body. -/

namespace Sys2Proof

/-- The configuration record CFG: three quirks and the instructions of a frame (spec/10_state.md R34). It is an
argument of `construct` and read-only from then on. -/
structure Cfg where
  /-- `8xy6` and `8xyE` shift V[y] instead of V[x]. -/
  legacyShift : Bool
  /-- `Bnnn` adds V[x] instead of V[0]. -/
  jumpAddOffset : Bool
  /-- `Fx55` and `Fx65` advance I by the count of bytes moved. -/
  memoryIncrementIndex : Bool
  /-- How many instructions one `run_frame` executes; 0 is admitted. -/
  instructionsPerFrame : Nat
deriving DecidableEq, Repr

/-- The reference configuration (spec/00_scope.md R9): every quirk off, 11 instructions a frame.
DESIGN CHOICE (the booleans: D17), unsafe; notes/assumptions/4.md. -/
def Cfg.reference : Cfg :=
  { legacyShift := false, jumpAddOffset := false, memoryIncrementIndex := false, instructionsPerFrame := 11 }

/-- How the two writes of VF come out in a shift whose target is VF (spec/42_alu.md R165). -/
inductive ShiftReading where
  /-- The flag is written to VF, then VF is shifted in place. -/
  | inPlace
  /-- The shifted operand is written last. -/
  | savedValue
  /-- The flag is written last. -/
  | flagLast
deriving DecidableEq, Repr, Inhabited

namespace Config

/-- The oracle RandDraw (spec/00_scope.md R16): the byte the n-th use of a free value draws. A free value: any byte;
notes/assumptions/8.md. -/
opaque randDraw : Nat → Byte

/-- Whether VF ends as the 8-bit result (true) or as the flag (false) after `8xy4`, `8xy5` or `8xy7` with x = F
(spec/42_alu.md R164 admits both). A free value; notes/assumptions/9.md. -/
opaque keepsResult : Nat → Bool

/-- Which of the three admitted readings a shift with x = F takes (spec/42_alu.md R165). A free value;
notes/assumptions/10.md. -/
opaque shiftReading : Nat → ShiftReading

/-- Whether `DFyn` reads its column from VF after VF was reset to 0 (spec/44_display.md R253 admits both). A free
value; notes/assumptions/11.md. -/
opaque columnAfterReset : Nat → Bool

/-- Whether `DxFn` reads its row from VF after VF was reset to 0 (spec/44_display.md R253 admits both). A free value;
notes/assumptions/11.md. -/
opaque rowAfterReset : Nat → Bool

end Config

end Sys2Proof
end

