-- ==== Sys2Proof/Machine/Font.lean ====
section
/-! DEFINITION. The font table (spec/10_state.md R27): where it stands, its layout, and the reference value of the
parameter FONT. -/

namespace Sys2Proof.Machine

/-- The parameter FONT: 16 glyphs of 5 bytes in glyph order (spec/10_state.md R27, spec/00_scope.md R9). -/
abbrev Font := Vector Byte 80

/-- The font's base address (spec/10_state.md R27). -/
def fontBase : Nat := 0x050

/-- Glyphs 0 to 7 of the conventional font, row by row from the top. -/
def fontLow : Vector Byte 40 :=
  #v[0xF0, 0x90, 0x90, 0x90, 0xF0,
     0x20, 0x60, 0x20, 0x20, 0x70,
     0xF0, 0x10, 0xF0, 0x80, 0xF0,
     0xF0, 0x10, 0xF0, 0x10, 0xF0,
     0x90, 0x90, 0xF0, 0x10, 0x10,
     0xF0, 0x80, 0xF0, 0x10, 0xF0,
     0xF0, 0x80, 0xF0, 0x90, 0xF0,
     0xF0, 0x10, 0x20, 0x40, 0x40]

/-- Glyphs 8 to F of the conventional font. -/
def fontHigh : Vector Byte 40 :=
  #v[0xF0, 0x90, 0xF0, 0x90, 0xF0,
     0xF0, 0x90, 0xF0, 0x10, 0xF0,
     0xF0, 0x90, 0xF0, 0x90, 0x90,
     0xE0, 0x90, 0xE0, 0x90, 0xE0,
     0xF0, 0x80, 0x80, 0x80, 0xF0,
     0xE0, 0x90, 0x90, 0x90, 0xE0,
     0xF0, 0x80, 0xF0, 0x80, 0xF0,
     0xF0, 0x80, 0xF0, 0x80, 0x80]

/-- The reference value of FONT, the conventional CHIP-8 font (spec/10_state.md R27, which takes it from general
knowledge; D7). PRESUMED, unsafe; notes/assumptions/3.md. -/
def Font.reference : Font := fontLow ++ fontHigh

end Sys2Proof.Machine
end

