-- ==== Sys2Proof/Machine/State.lean ====
section
/-! DEFINITION. The state of the core, everything spec/10_state.md gives it (R20–R39), as plain data; the fault record
(spec/60_exceptions.md R322); the reasons a step of the model can stop; and the state after reset (R38). -/

namespace Sys2Proof.Machine

/-- The causes of a fatal execution error (spec/60_exceptions.md R321). -/
inductive FaultCause where
  /-- The word matches no row of the opcode map. Raised by decode. -/
  | invalidOpcode
  /-- `2nnn` with SP = 16. -/
  | stackOverflow
  /-- `00EE` with SP = 0. -/
  | stackUnderflow
  /-- A fetch with PC + 1 above 0xFFF. -/
  | fetchOutOfBounds
  /-- `Dxyn` or `Fx65` with a byte of its range above 0xFFF. -/
  | readOutOfBounds
  /-- `Fx33` or `Fx55` with a byte of its range above 0xFFF. -/
  | writeOutOfBounds
  /-- `Ex9E` or `ExA1` with V[x] above 15. -/
  | keyIndexOutOfRange
deriving DecidableEq, Repr

/-- What HALT records of a fault (spec/60_exceptions.md R322). -/
structure FaultRecord where
  cause : FaultCause
  /-- The address of the faulting instruction. -/
  pc : Word
  /-- The faulting word; none for a fetch that failed. -/
  word : Option Word
  /-- The lowest address out of range, for the three out-of-bounds causes. -/
  addr : Option Nat
deriving DecidableEq, Repr

/-- The framebuffer: 64 columns of 32 pixels, FB[px][py] (spec/10_state.md R30). -/
abbrev Framebuffer := Vector (Vector Bool 32) 64

/-- Every pixel off. -/
def Framebuffer.blank : Framebuffer := Vector.replicate 64 (Vector.replicate 32 false)

/-- The whole state (spec/10_state.md R39). -/
structure State where
  /-- V[0]..V[15] (R20); VF is V[15]. -/
  v : Vector Byte 16
  /-- The index register I (R24). -/
  i : Word
  /-- The program counter PC (R25). -/
  pc : Word
  /-- The stack pointer SP, 0..16 (R26). -/
  sp : Fin 17
  /-- The stack entries S[0]..S[15] (R26). -/
  stack : Vector Word 16
  /-- The delay timer DT (R28). -/
  dt : Byte
  /-- The sound timer ST (R28). -/
  st : Byte
  /-- The memory M (R29): the bytes that differ from the reset contents, by rising address (Machine/Ops.lean). -/
  mem : List Host.Cell
  /-- The pixels FB (R30). -/
  fb : Framebuffer
  /-- The dirty flag DIRTY (R30). -/
  dirty : Bool
  /-- The key states K[0]..K[15], true = down (R31). -/
  keys : Vector Bool 16
  /-- The awaiting-release slot LATCH (R31, R32). -/
  latch : Option Key
  /-- The fault record slot HALT (R33). -/
  halt : Option FaultRecord
  /-- The configuration CFG, read-only after construction (R34). -/
  cfg : Cfg
  /-- The MODEL's own counter, not the spec's: every use of a free value reads and advances it
  (notes/assumptions/8.md). -/
  fresh : Nat
deriving DecidableEq, Repr

/-- Reasons for Host.Outcome.fault. There is none: every fault of this core is recorded in HALT, which is state, so the
step that raises it has a next state (spec/00_scope.md R14, spec/60_exceptions.md R323); a step of a halted core is a
next state too (R323). Nothing raises one; safe (notes/assumptions/6.md). -/
inductive Fault
deriving DecidableEq, Repr

/-- Reasons for Host.Outcome.refused. -/
inductive Refusal where
  /-- The instruction has no meaning in the model. Answered only by an arm of exec that rejects its instruction by
  name; safe. No arm does. -/
  | notModelled (mnemonic : String)
deriving DecidableEq, Repr

/-- What a meaning and a step answer. -/
abbrev Result := Host.Outcome State Fault Refusal

/-- The state right after reset: `construct` with the reference configuration, the reference font and `clean_reset`
(spec/10_state.md R38, spec/70_reset_and_hazards.md R380, R381). PC is the source's; the other values are the spec's
reference choices: DESIGN CHOICE, unsafe (notes/assumptions/2.md, 3.md, 4.md, 8.md). Memory lists nothing: every byte
is at its reset contents, the font among them. -/
def State.reset : State where
  v := Vector.replicate 16 0
  i := 0
  pc := 0x200
  sp := 0
  stack := Vector.replicate 16 0
  dt := 0
  st := 0
  mem := []
  fb := Framebuffer.blank
  dirty := false
  keys := Vector.replicate 16 false
  latch := none
  halt := none
  cfg := Cfg.reference
  fresh := 0

end Sys2Proof.Machine
end

