-- ==== Sys2Proof/Machine/Ops.lean ====
section
/-! DEFINITION. The named operations over memory, registers, stack, keypad and framebuffer, and raising a fault. Every
meaning reads and writes the state through these. -/

namespace Sys2Proof.Machine

/-! ### Memory: 4096 bytes, a list in canonical form (spec/20_memory.md R60, spec/10_state.md R29) -/

/-- The size of the address space; the addresses are 0x000..0xFFF (spec/20_memory.md R60). -/
def memSize : Nat := 4096

/-- What an address that memory does not list reads as: the reset contents, the font at 0x050..0x09F and 0 elsewhere
(spec/10_state.md R27, R38, spec/20_memory.md R69). DESIGN CHOICE for the zeros (D5), PRESUMED for the font's bytes
(D7): unsafe; notes/assumptions/22.md. -/
def Memory.unlisted (a : Nat) : Byte :=
  if h : fontBase ≤ a ∧ a - fontBase < 80 then Font.reference[a - fontBase] else 0

/-- `M[a]`. -/
def Memory.read : List Host.Cell → Nat → Byte
  | [], a => Memory.unlisted a
  | (k, b) :: rest, a => if k = a then b else Memory.read rest a

/-- The list with address a's entry removed or placed, in order: no entry is kept that equals the unlisted value. -/
def Memory.write : List Host.Cell → Nat → Byte → List Host.Cell
  | [], a, b => if b = Memory.unlisted a then [] else [(a, b)]
  | (k, c) :: rest, a, b =>
    if a < k then (if b = Memory.unlisted a then (k, c) :: rest else (a, b) :: (k, c) :: rest)
    else if a = k then (if b = Memory.unlisted a then rest else (a, b) :: rest)
    else (k, c) :: Memory.write rest a b

/-- The bytes written at a, a+1, …, in rising order. -/
def Memory.writeBytes (m : List Host.Cell) (a : Nat) : List Byte → List Host.Cell
  | [] => m
  | b :: bs => Memory.writeBytes (Memory.write m a b) (a + 1) bs

/-- Every entry's address is at least lo and below the memory's end, the addresses rise strictly, and no entry equals
the unlisted value. -/
def Memory.wfFrom : Nat → List Host.Cell → Bool
  | _, [] => true
  | lo, (k, b) :: rest => decide (lo ≤ k) && decide (k < memSize) && (b != Memory.unlisted k) && Memory.wfFrom (k + 1) rest

/-- The canonical form: addresses inside 0x000..0xFFF and strictly rising, no entry equal to what the address reads as
unlisted. Two memories in this form that read alike are equal lists. -/
def Memory.wf (m : List Host.Cell) : Bool := Memory.wfFrom 0 m

/-- The lowest out-of-range address of the len bytes from base, if there is one: addresses do not wrap
(spec/20_memory.md R64–R66; D10). -/
def rangeFault (base len : Nat) : Option Nat :=
  if len = 0 then none else if base + (len - 1) ≤ 0xFFF then none else some (max base 0x1000)

/-- `M[a]` of a state. -/
def State.byteAt (s : State) (a : Nat) : Byte := Memory.read s.mem a

/-- Store bytes at a, a+1, …; callers check the range first (spec/20_memory.md R66). -/
def State.storeBytes (s : State) (a : Nat) (bs : List Byte) : State := { s with mem := Memory.writeBytes s.mem a bs }

/-! ### Registers -/

/-- `V[x]`. -/
def State.reg (s : State) (x : Reg) : Byte := s.v[x]

/-- `V[x] <- b`. -/
def State.setReg (s : State) (x : Reg) (b : Byte) : State := { s with v := s.v.set x b }

/-- `I <- w`. -/
def State.setI (s : State) (w : Word) : State := { s with i := w }

/-- `PC <- w`. -/
def State.setPc (s : State) (w : Word) : State := { s with pc := w }

/-- The provisional advance, `PC <- (a + 2) mod 2^16` (spec/30_encoding.md R103). -/
def State.advance (s : State) : State := { s with pc := s.pc + 2 }

/-- A skip taken where the condition holds: `PC <- (PC + 2) mod 2^16` once more, on the already advanced PC
(spec/41_control_flow.md R132). -/
def State.skipIf (s : State) (condition : Bool) : State := if condition then s.advance else s

/-- `DT <- b`. -/
def State.setDt (s : State) (b : Byte) : State := { s with dt := b }

/-- `ST <- b`. -/
def State.setSt (s : State) (b : Byte) : State := { s with st := b }

/-- Load V[0]..V[k-1] from the k bytes at base, in rising order (spec/43_index_memory.md R206). -/
def State.loadRegs (s : State) (base : Nat) : Nat → State
  | 0 => s
  | k + 1 =>
    let t := s.loadRegs base k
    if h : k < 16 then t.setReg ⟨k, h⟩ (s.byteAt (base + k)) else t

/-- One free value was used: advance the model's own counter (notes/assumptions/8.md). -/
def State.useFresh (s : State) : State := { s with fresh := s.fresh + 1 }

/-! ### The call stack (spec/10_state.md R26) -/

/-- `S[SP] <- w; SP <- SP + 1`, or none where SP = 16. -/
def State.push? (s : State) (w : Word) : Option State :=
  if h : s.sp.val < 16 then some { s with stack := s.stack.set s.sp.val w, sp := ⟨s.sp.val + 1, by omega⟩ } else none

/-- `SP <- SP - 1; result <- S[SP]`, or none where SP = 0. The entry keeps its value. -/
def State.pop? (s : State) : Option (Word × State) :=
  if h : 0 < s.sp.val then
    some (s.stack[s.sp.val - 1]'(by omega), { s with sp := ⟨s.sp.val - 1, by omega⟩ })
  else none

/-! ### The keypad (spec/10_state.md R31) -/

/-- `K[k]`. -/
def State.keyDown (s : State) (k : Key) : Bool := s.keys[k]

/-- `K[k] <- b`. -/
def State.setKey (s : State) (k : Key) (b : Bool) : State := { s with keys := s.keys.set k b }

/-- `LATCH <- l`. -/
def State.setLatch (s : State) (l : Option Key) : State := { s with latch := l }

/-- All the key indices, ascending. -/
def allKeys : List Key := [0, 1, 2, 3, 4, 5, 6, 7, 8, 9, 10, 11, 12, 13, 14, 15]

/-- The lowest key that is down: the ascending scan of spec/45_keypad_timers.md R275. -/
def State.lowestKeyDown (s : State) : Option Key := allKeys.find? s.keyDown

/-! ### The framebuffer (spec/44_display.md R240–R242) -/

/-- `FB[px][py]`; false outside the grid. -/
def Framebuffer.pixel (fb : Framebuffer) (px py : Nat) : Bool :=
  if h : px < 64 ∧ py < 32 then (fb[px]'h.1)[py]'h.2 else false

/-- `FB[px][py]` of a state. -/
def State.pixel (s : State) (px py : Nat) : Bool := Framebuffer.pixel s.fb px py

/-- `Clear()`: every pixel off, DIRTY set even on a blank screen (R240). -/
def State.clearScreen (s : State) : State := { s with fb := Framebuffer.blank, dirty := true }

/-- `Toggle(px, py)`: inside the grid, flip the pixel, set DIRTY, and answer whether it was on (R241); outside, answer
false and change nothing (R242). -/
def State.toggle (s : State) (px py : Nat) : Bool × State :=
  if h : px < 64 ∧ py < 32 then
    let was := (s.fb[px]'h.1)[py]'h.2
    (was, { s with fb := s.fb.set px ((s.fb[px]'h.1).set py (!was) h.2) h.1, dirty := true })
  else (false, s)

/-! ### Raising a fault (spec/00_scope.md R14, spec/60_exceptions.md R323, R324)

This is the core's one exception mechanism: no handler, vector or saved register, and no return (R326). Only `load` and
`construct` clear HALT (Machine/HostCalls.lean). -/

/-- `raise`: s is the state before the faulting instruction's fetch, and all of it stays, PC included; HALT records the
fault. The record's pc is the instruction's own address, which is s.pc. -/
def raise (cause : FaultCause) (word : Option Word) (addr : Option Nat) (s : State) : Result :=
  .next { s with halt := some { cause := cause, pc := s.pc, word := word, addr := addr } }

/-- `raise` by an instruction that was decoded: the record's word is the instruction's (spec/60_exceptions.md R321). -/
def raiseBy (i : Instr) (cause : FaultCause) (addr : Option Nat) (s : State) : Result :=
  raise cause (some (encode i)) addr s

end Sys2Proof.Machine
end

