-- ==== Sys2Proof/Machine/Flags.lean ====
section
/-! DEFINITION. Results and flags of the arithmetic (spec/10_state.md R36, spec/42_alu.md R151): computed exactly on
numbers and narrowed at the end; and the two orders of writes when the destination is VF itself. -/

namespace Sys2Proof.Machine

/-- A flag in VF: 1 or 0. -/
def flagByte (b : Bool) : Byte := if b then 1 else 0

/-- `(p + q) mod 256`. -/
def addBytes (p q : Byte) : Byte := BitVec.ofNat 8 (p.toNat + q.toNat)

/-- Carry: `p + q > 255` (R158). -/
def carry (p q : Byte) : Bool := decide (255 < p.toNat + q.toNat)

/-- `(p + 256 - q) mod 256` (R159). -/
def subBytes (p q : Byte) : Byte := BitVec.ofNat 8 (p.toNat + 256 - q.toNat)

/-- No borrow: `p ≥ q`; equality counts as no borrow (R151). -/
def noBorrow (p q : Byte) : Bool := decide (q.toNat ≤ p.toNat)

/-- `v >> 1`, filled with 0 (R160). -/
def shiftRight (v : Byte) : Byte := BitVec.ofNat 8 (v.toNat / 2)

/-- `(v << 1) mod 256` (R162). -/
def shiftLeft (v : Byte) : Byte := BitVec.ofNat 8 (2 * v.toNat)

/-- Bit 0 of the operand before a right shift (R160). -/
def lowBit (v : Byte) : Bool := v.getLsbD 0

/-- Bit 7 of the operand before a left shift (R162). -/
def highBit (v : Byte) : Bool := v.getLsbD 7

/-- The two writes of `8xy4`, `8xy5`, `8xy7`: V[x] is the result, then VF the flag. Where x = F both land in VF, which
ends as one of the two, as the free value says (R164; D12; notes/assumptions/9.md). -/
def State.writeResultFlag (s : State) (x : Reg) (result flag : Byte) : State :=
  if x = regF then (s.setReg regF (if Config.keepsResult s.fresh then result else flag)).useFresh
  else (s.setReg x result).setReg regF flag

/-- The two writes of `8xy6` and `8xyE`: V[x] is the shifted operand, VF the bit shifted out. Where x = F, VF ends as one
of three: the flag shifted in place, the shifted operand, or the flag (R165; D13; notes/assumptions/10.md). -/
def State.writeShiftFlag (s : State) (x : Reg) (shift : Byte → Byte) (operand flag : Byte) : State :=
  if x = regF then
    (s.setReg regF
      (match Config.shiftReading s.fresh with
        | .inPlace => shift flag
        | .savedValue => shift operand
        | .flagLast => flag)).useFresh
  else (s.setReg x (shift operand)).setReg regF flag

end Sys2Proof.Machine
end

