-- ==== Sys2Proof/Machine/Operands.lean ====
section
/-! DEFINITION. The operand forms (spec/30_encoding.md R92, spec/43_index_memory.md R207): what an instruction's fields
stand for in a state. Register operands are State.reg. -/

namespace Sys2Proof.Machine

/-- `nnn` used as an address: zero-extended to 16 bits (R92). -/
def zext16 (nnn : BitVec 12) : Word := nnn.zeroExtend 16

/-- A byte added to a 16-bit register: zero-extended, no sign (R92, R151). -/
def byteToWord (b : Byte) : Word := b.zeroExtend 16

/-- The base of an I-relative range: I as an unbounded number, so that I + i never wraps (R207; D10). -/
def State.indexBase (s : State) : Nat := s.i.toNat

/-- The operand of a shift: V[y] under legacy_shift, else V[x] (spec/42_alu.md R160, R162). -/
def State.shiftOperand (s : State) (x y : Reg) : Byte := if s.cfg.legacyShift then s.reg y else s.reg x

/-- The register `Bnnn` adds: V[x] under jump_add_offset, else V[0] (spec/41_control_flow.md R140). -/
def State.jumpOffset (s : State) (x : Reg) : Byte := if s.cfg.jumpAddOffset then s.reg x else s.reg reg0

/-- The key a register names, or none where its value is above 15 (spec/45_keypad_timers.md R265). -/
def keyOfByte (b : Byte) : Option Key := if h : b.toNat < 16 then some ⟨b.toNat, h⟩ else none

/-- A key index as a register value (spec/45_keypad_timers.md R275). -/
def byteOfKey (k : Key) : Byte := BitVec.ofNat 8 k.val

/-- The address of a font glyph: 0x050 + 5 · V[x], with no masking to 4 bits (spec/43_index_memory.md R203). -/
def glyphAddress (b : Byte) : Word := BitVec.ofNat 16 (fontBase + 5 * b.toNat)

/-- The hundreds, tens and ones digits of a byte (spec/43_index_memory.md R204). -/
def decimalDigits (b : Byte) : List Byte :=
  [BitVec.ofNat 8 (b.toNat / 100), BitVec.ofNat 8 (b.toNat / 10 % 10), BitVec.ofNat 8 (b.toNat % 10)]

/-- The bytes `Fx55` stores: V[0]..V[x] (spec/43_index_memory.md R205). -/
def State.regsUpTo (s : State) (x : Reg) : List Byte := s.v.toList.take (x.val + 1)

/-- I after a block transfer of V[0]..V[x]: I + x + 1 under memory_increment_index, else I
(spec/43_index_memory.md R205, R206). -/
def State.indexAfterBlock (s : State) (x : Reg) : Word :=
  if s.cfg.memoryIncrementIndex then s.i + BitVec.ofNat 16 (x.val + 1) else s.i

/-- The byte a `Dxyn` coordinate is taken from: V[x], but where x = F either VF's old value or 0, as the free value says
(spec/44_display.md R253; D14; notes/assumptions/11.md). -/
def State.coordinate (s : State) (x : Reg) (afterReset : Bool) : Byte := if x = regF ∧ afterReset then 0 else s.reg x

/-- The sprite's column: `V[x] mod 64` (spec/44_display.md R250). -/
def State.spriteColumn (s : State) (x : Reg) : Nat := (s.coordinate x (Config.columnAfterReset s.fresh)).toNat % 64

/-- The sprite's row: `V[y] mod 32` (spec/44_display.md R250). -/
def State.spriteRow (s : State) (y : Reg) : Nat := (s.coordinate y (Config.rowAfterReset s.fresh)).toNat % 32

end Sys2Proof.Machine
end

