-- ==== Sys2Proof/Machine/Alu.lean ====
section
/-! DEFINITION. Register arithmetic, logic, shifts and random (spec/42_alu.md). Operands are read before any register is
written; none of these faults. -/

namespace Sys2Proof.Machine

/-- `6xnn` LD Vx, nn (R152). -/
def execLdImm (x : Reg) (nn : Byte) (s : State) : Result := .next (s.advance.setReg x nn)

/-- `7xnn` ADD Vx, nn (R153): wraps mod 256, VF is no flag. -/
def execAddImm (x : Reg) (nn : Byte) (s : State) : Result := .next (s.advance.setReg x (addBytes (s.reg x) nn))

/-- `8xy0` LD Vx, Vy (R154). -/
def execLdReg (x y : Reg) (s : State) : Result := .next (s.advance.setReg x (s.reg y))

/-- `8xy1` OR Vx, Vy (R155). -/
def execOrReg (x y : Reg) (s : State) : Result := .next (s.advance.setReg x (s.reg x ||| s.reg y))

/-- `8xy2` AND Vx, Vy (R156). -/
def execAndReg (x y : Reg) (s : State) : Result := .next (s.advance.setReg x (s.reg x &&& s.reg y))

/-- `8xy3` XOR Vx, Vy (R157). -/
def execXorReg (x y : Reg) (s : State) : Result := .next (s.advance.setReg x (s.reg x ^^^ s.reg y))

/-- `8xy4` ADD Vx, Vy (R158, R164): VF is the carry. -/
def execAddReg (x y : Reg) (s : State) : Result :=
  .next (s.advance.writeResultFlag x (addBytes (s.reg x) (s.reg y)) (flagByte (carry (s.reg x) (s.reg y))))

/-- `8xy5` SUB Vx, Vy (R159, R164): V[x] - V[y], VF is no borrow. -/
def execSubReg (x y : Reg) (s : State) : Result :=
  .next (s.advance.writeResultFlag x (subBytes (s.reg x) (s.reg y)) (flagByte (noBorrow (s.reg x) (s.reg y))))

/-- `8xy6` SHR Vx, Vy (R160, R165): VF is bit 0 of the operand. -/
def execShrReg (x y : Reg) (s : State) : Result :=
  .next (s.advance.writeShiftFlag x shiftRight (s.shiftOperand x y) (flagByte (lowBit (s.shiftOperand x y))))

/-- `8xy7` SUBN Vx, Vy (R161, R164): V[y] - V[x], VF is no borrow. -/
def execSubnReg (x y : Reg) (s : State) : Result :=
  .next (s.advance.writeResultFlag x (subBytes (s.reg y) (s.reg x)) (flagByte (noBorrow (s.reg y) (s.reg x))))

/-- `8xyE` SHL Vx, Vy (R162, R165): VF is bit 7 of the operand. -/
def execShlReg (x y : Reg) (s : State) : Result :=
  .next (s.advance.writeShiftFlag x shiftLeft (s.shiftOperand x y) (flagByte (highBit (s.shiftOperand x y))))

/-- `Cxnn` RND Vx, nn (R163): a fresh draw, any byte, masked by nn. -/
def execRnd (x : Reg) (nn : Byte) (s : State) : Result :=
  .next (s.advance.setReg x (Config.randDraw s.fresh &&& nn)).useFresh

end Sys2Proof.Machine
end

