-- ==== Sys2Proof/Machine/ControlFlow.lean ====
section
/-! DEFINITION. Control transfer (spec/41_control_flow.md). A meaning takes the state from before the instruction's
fetch, whose PC is the instruction's own address a (notes/assumptions/5.md); `advance` makes PC = a + 2. -/

namespace Sys2Proof.Machine

/-- `00EE` RET (R133): pop into PC; StackUnderflow where SP = 0. -/
def execRet (s : State) : Result :=
  match s.advance.pop? with
  | none => raiseBy .ret .stackUnderflow none s
  | some (target, t) => .next (t.setPc target)

/-- `1nnn` JP nnn (R134). -/
def execJp (nnn : BitVec 12) (s : State) : Result := .next (s.advance.setPc (zext16 nnn))

/-- `2nnn` CALL nnn (R135): push a + 2; StackOverflow where SP = 16. -/
def execCall (nnn : BitVec 12) (s : State) : Result :=
  match s.advance.push? s.advance.pc with
  | none => raiseBy (.call nnn) .stackOverflow none s
  | some t => .next (t.setPc (zext16 nnn))

/-- `3xnn` SE Vx, nn (R136). -/
def execSeImm (x : Reg) (nn : Byte) (s : State) : Result := .next (s.advance.skipIf (s.reg x == nn))

/-- `4xnn` SNE Vx, nn (R137). -/
def execSneImm (x : Reg) (nn : Byte) (s : State) : Result := .next (s.advance.skipIf (s.reg x != nn))

/-- `5xy0` SE Vx, Vy (R138). -/
def execSeReg (x y : Reg) (s : State) : Result := .next (s.advance.skipIf (s.reg x == s.reg y))

/-- `9xy0` SNE Vx, Vy (R139). -/
def execSneReg (x y : Reg) (s : State) : Result := .next (s.advance.skipIf (s.reg x != s.reg y))

/-- `Bnnn` JP V0, nnn (R140): nnn plus V[0], or plus V[x] under jump_add_offset. -/
def execJpV0 (nnn : BitVec 12) (x : Reg) (s : State) : Result :=
  .next (s.advance.setPc (zext16 nnn + byteToWord (s.jumpOffset x)))

end Sys2Proof.Machine
end

