-- ==== Sys2Proof/Machine/Display.lean ====
section
/-! DEFINITION. The display instructions (spec/44_display.md). -/

namespace Sys2Proof.Machine

/-- `00E0` CLS (R244). -/
def execCls (s : State) : Result := .next s.advance.clearScreen

/-- One row of a sprite: the bits of b, most significant first, at columns x0 + c of row py. A column outside the grid
ends the row (R252); a 1 bit toggles its pixel, and hit gathers whether any toggled pixel was on (R253). -/
def drawRow (x0 py : Nat) (b : Byte) : List Nat → State × Bool → State × Bool
  | [], acc => acc
  | c :: cs, (s, hit) =>
    if 64 ≤ x0 + c then (s, hit)
    else if b.getLsbD (7 - c) then
      let (was, t) := s.toggle (x0 + c) py
      drawRow x0 py b cs (t, hit || was)
    else drawRow x0 py b cs (s, hit)

/-- The rows of a sprite from memory at base: row r at y0 + r. A row outside the grid ends the drawing (R252). -/
def drawRows (x0 y0 base : Nat) : List Nat → State × Bool → State × Bool
  | [], acc => acc
  | r :: rs, (s, hit) =>
    if 32 ≤ y0 + r then (s, hit)
    else drawRows x0 y0 base rs (drawRow x0 (y0 + r) (s.byteAt (base + r)) [0, 1, 2, 3, 4, 5, 6, 7] (s, hit))

/-- A `Dxyn` with VF among its coordinates uses a free value (R253). -/
def State.useFreshIfFlagOperand (s : State) (x y : Reg) : State := if x = regF ∨ y = regF then s.useFresh else s

/-- `Dxyn` DRW Vx, Vy, n (R250): all n row addresses are checked first (D9), VF is reset, the rows are drawn, and VF is 1
where a toggled pixel was on. -/
def execDrw (x y : Reg) (n : BitVec 4) (s : State) : Result :=
  match rangeFault s.indexBase n.toNat with
  | some addr => raiseBy (.drw x y n) .readOutOfBounds (some addr) s
  | none =>
    let start := (s.advance.useFreshIfFlagOperand x y).setReg regF 0
    let (t, hit) := drawRows (s.spriteColumn x) (s.spriteRow y) s.indexBase (List.range n.toNat) (start, false)
    .next (if hit then t.setReg regF 1 else t)

end Sys2Proof.Machine
end

