-- ==== Sys2Proof/Machine/IndexMemory.lean ====
section
/-! DEFINITION. The index register and memory transfer (spec/43_index_memory.md). A range is checked whole before
anything changes (spec/20_memory.md R66). -/

namespace Sys2Proof.Machine

/-- `Annn` LD I, nnn (R201). -/
def execLdI (nnn : BitVec 12) (s : State) : Result := .next (s.advance.setI (zext16 nnn))

/-- `Fx1E` ADD I, Vx (R202): wraps mod 2^16, VF is not written (D23). -/
def execAddI (x : Reg) (s : State) : Result := .next (s.advance.setI (s.i + byteToWord (s.reg x)))

/-- `Fx29` LD F, Vx (R203). -/
def execLdF (x : Reg) (s : State) : Result := .next (s.advance.setI (glyphAddress (s.reg x)))

/-- `Fx33` LD B, Vx (R204): three decimal digits at I, I + 1, I + 2. -/
def execLdB (x : Reg) (s : State) : Result :=
  match rangeFault s.indexBase 3 with
  | some addr => raiseBy (.ldB x) .writeOutOfBounds (some addr) s
  | none => .next (s.advance.storeBytes s.indexBase (decimalDigits (s.reg x)))

/-- `Fx55` LD [I], Vx (R205): V[0]..V[x] to memory from I. -/
def execLdMemVx (x : Reg) (s : State) : Result :=
  match rangeFault s.indexBase (x.val + 1) with
  | some addr => raiseBy (.ldMemVx x) .writeOutOfBounds (some addr) s
  | none => .next ((s.advance.storeBytes s.indexBase (s.regsUpTo x)).setI (s.indexAfterBlock x))

/-- `Fx65` LD Vx, [I] (R206): V[0]..V[x] from memory at I. -/
def execLdVxMem (x : Reg) (s : State) : Result :=
  match rangeFault s.indexBase (x.val + 1) with
  | some addr => raiseBy (.ldVxMem x) .readOutOfBounds (some addr) s
  | none => .next ((s.advance.loadRegs s.indexBase (x.val + 1)).setI (s.indexAfterBlock x))

end Sys2Proof.Machine
end

