-- ==== Sys2Proof/Machine/KeypadTimers.lean ====
section
/-! DEFINITION. The keypad and timer instructions (spec/45_keypad_timers.md). -/

namespace Sys2Proof.Machine

/-- `Ex9E` SKP Vx (R267): KeyIndexOutOfRange where V[x] > 15 (R265). -/
def execSkp (x : Reg) (s : State) : Result :=
  match keyOfByte (s.reg x) with
  | none => raiseBy (.skp x) .keyIndexOutOfRange none s
  | some k => .next (s.advance.skipIf (s.keyDown k))

/-- `ExA1` SKNP Vx (R268): KeyIndexOutOfRange where V[x] > 15 (R265). -/
def execSknp (x : Reg) (s : State) : Result :=
  match keyOfByte (s.reg x) with
  | none => raiseBy (.sknp x) .keyIndexOutOfRange none s
  | some k => .next (s.advance.skipIf (!s.keyDown k))

/-- `Fx07` LD Vx, DT (R270). -/
def execLdVxDt (x : Reg) (s : State) : Result := .next (s.advance.setReg x s.dt)

/-- `Fx0A` LD Vx, K (R275, R276). With no key latched, latch the lowest key that is down, if any, and hold; with a key
latched, hold while it is down, else write its index, clear the latch and go on. To hold is to leave PC at the
instruction's own address (spec/00_scope.md R15), which it still has in s. -/
def execLdVxK (x : Reg) (s : State) : Result :=
  match s.latch with
  | none =>
    match s.lowestKeyDown with
    | none => .next s
    | some k => .next (s.setLatch (some k))
  | some k => if s.keyDown k then .next s else .next ((s.advance.setReg x (byteOfKey k)).setLatch none)

/-- `Fx15` LD DT, Vx (R271). -/
def execLdDtVx (x : Reg) (s : State) : Result := .next (s.advance.setDt (s.reg x))

/-- `Fx18` LD ST, Vx (R272). -/
def execLdStVx (x : Reg) (s : State) : Result := .next (s.advance.setSt (s.reg x))

end Sys2Proof.Machine
end

