-- ==== Sys2Proof/Machine/Cycle.lean ====
section
/-! DEFINITION. Fetch, decode, execute: `step()` (spec/30_encoding.md R101–R104). -/

namespace Sys2Proof.Machine

/-- The fetch bound: the lowest out-of-range byte address of a fetch at a, or none where both bytes exist (R104). -/
def fetchFault (a : Nat) : Option Nat := if 0xFFF < a + 1 then some (if 0xFFF < a then a else a + 1) else none

/-- The instruction word at PC, big-endian (spec/20_memory.md R61), or the address at which the fetch fails. -/
def State.fetch (s : State) : Except Nat Word :=
  match fetchFault s.pc.toNat with
  | some addr => .error addr
  | none => .ok (wordOfBytes (s.byteAt s.pc.toNat) (s.byteAt (s.pc.toNat + 1)))

/-- Decode and execute a fetched word. An illegal word raises InvalidOpcode (R95). -/
def runWord (w : Word) (s : State) : Result :=
  match decode w with
  | .error _ => raise .invalidOpcode (some w) none s
  | .ok i => exec i s

/-- `step()` (R103): nothing on a halted core; else fetch, decode and execute one instruction. -/
def cycle (s : State) : Result :=
  if s.halt.isSome then .next s
  else
    match s.fetch with
    | .error addr => raise .fetchOutOfBounds none (some addr) s
    | .ok w => runWord w s

end Sys2Proof.Machine
end

