-- ==== Sys2Proof/Machine/Step.lean ====
section
/-! DEFINITION. One step of the machine, and a word placed where the next step fetches it. -/

namespace Sys2Proof.Machine

/-- One step: the core's operation `step()` (spec/30_encoding.md R103, spec/60_exceptions.md R301). -/
def step (s : State) : Host.Outcome State Fault Refusal := cycle s

/-- The state with an instruction's word stored where the next step fetches it: its two bytes at PC, high byte first
(spec/20_memory.md R61), the core not halted, and PC moved to the load address 0x200 where no fetch is possible at PC
(notes/assumptions/23.md). -/
def State.withFetchWord (s : State) (nbits w : Nat) : State :=
  let pc : Word := if s.pc.toNat ≤ 0xFFE then s.pc else 0x200
  { s with
    pc := pc
    halt := none
    mem := Memory.writeBytes s.mem pc.toNat (bytesOfWord (BitVec.ofNat 16 (w % 2 ^ nbits))) }

end Sys2Proof.Machine
end

