-- ==== Sys2Proof/Machine/HostCalls.lean ====
section
/-! DEFINITION. The host's operations on the core (spec/00_scope.md R10, spec/60_exceptions.md R300–R307,
spec/70_reset_and_hazards.md R380–R383), each atomic, and any sequence of them. -/

namespace Sys2Proof.Machine

/-- Host errors: a call refused with no state change, HALT included (spec/60_exceptions.md R305). -/
inductive HostError where
  /-- `key_down` or `key_up` with a key above 15 (R302). -/
  | invalidKeyIndex
  /-- `load` of more than 3584 bytes (R306). -/
  | programTooLarge
  /-- The memory write primitive outside 0x000..0xFFF (spec/20_memory.md R67). -/
  | badAddress
deriving DecidableEq, Repr

/-! ### Construction (spec/70_reset_and_hazards.md R380, R381, R383) -/

/-- The toggle of legacy_shift before first use: it changes the argument of `construct` (R34, R383;
notes/assumptions/24.md). -/
def setLegacyShift (b : Bool) (c : Cfg) : Cfg := { c with legacyShift := b }
/-- The toggle of jump_add_offset before first use. -/
def setJumpAddOffset (b : Bool) (c : Cfg) : Cfg := { c with jumpAddOffset := b }
/-- The toggle of memory_increment_index before first use. -/
def setMemoryIncrementIndex (b : Bool) (c : Cfg) : Cfg := { c with memoryIncrementIndex := b }
/-- The instructions of a frame, set before first use. -/
def setInstructionsPerFrame (n : Nat) (c : Cfg) : Cfg := { c with instructionsPerFrame := n }

/-- The parameter `InitState`: the values after `construct` of every state element the source gives none for (R381). -/
structure InitState where
  v : Vector Byte 16
  i : Word
  stack : Vector Word 16
  dt : Byte
  st : Byte
  /-- M[a] for a outside the font, as State.mem lists it. -/
  mem : List Host.Cell
  fb : Framebuffer
  dirty : Bool
  keys : Vector Bool 16
  latch : Option Key
  /-- The model's own counter. -/
  fresh : Nat
deriving DecidableEq, Repr

/-- The named premise `clean_reset` (R381): every number 0, every pixel off, every key up, not dirty, no latch. -/
def InitState.cleanReset : InitState where
  v := Vector.replicate 16 0
  i := 0
  stack := Vector.replicate 16 0
  dt := 0
  st := 0
  mem := []
  fb := Framebuffer.blank
  dirty := false
  keys := Vector.replicate 16 false
  latch := none
  fresh := 0

/-- `construct(cfg)` (R380), for any FONT and InitState. -/
def construct (cfg : Cfg) (font : Font) (init : InitState) : State where
  v := init.v
  i := init.i
  pc := 0x200
  sp := 0
  stack := init.stack
  dt := init.dt
  st := init.st
  mem := Memory.writeBytes init.mem fontBase font.toList
  fb := init.fb
  dirty := init.dirty
  keys := init.keys
  latch := init.latch
  halt := none
  cfg := cfg
  fresh := init.fresh

/-! ### Memory writes and program load -/

/-- The host-level memory write (spec/20_memory.md R67): all or nothing, refused where the address or the range's end
lies outside memory, an empty write at 4096 or above included. Its success value is not modelled (D32). -/
def hostWrite (address : Nat) (bytes : List Byte) (s : State) : Except HostError State :=
  if address ≥ memSize ∨ address + bytes.length > memSize then .error .badAddress
  else .ok (s.storeBytes address bytes)

/-- The address programs are loaded at, and PC after a load (spec/60_exceptions.md R306). -/
def loadBase : Nat := 0x200

/-- `load(bytes)` (spec/60_exceptions.md R306): the bytes at 0x200, PC at 0x200, HALT cleared, nothing else changed. -/
def load (bytes : List Byte) (s : State) : Except HostError State :=
  if loadBase + bytes.length > memSize then .error .programTooLarge
  else .ok { s.storeBytes loadBase bytes with pc := 0x200, halt := none }

/-! ### Keys (spec/60_exceptions.md R302) -/

/-- K[k] set to b, or InvalidKeyIndex where k > 15; LATCH and HALT play no part. -/
def injectKey (k : Nat) (b : Bool) (s : State) : Except HostError State :=
  if h : k < 16 then .ok (s.setKey ⟨k, h⟩ b) else .error .invalidKeyIndex

/-- `key_down(k)`. -/
def keyDownCall (k : Nat) (s : State) : Except HostError State := injectKey k true s

/-- `key_up(k)`. -/
def keyUpCall (k : Nat) (s : State) : Except HostError State := injectKey k false s

/-- `is_down(k)`, the host-visible read of K[k]. -/
def isDown (k : Key) (s : State) : Bool := s.keyDown k

/-- `is_up(k)`. -/
def isUp (k : Key) (s : State) : Bool := !s.keyDown k

/-! ### Display, sound and fault report -/

/-- `framebuffer_snapshot()` (R303): a copy of FB, and DIRTY cleared. -/
def framebufferSnapshot (s : State) : Framebuffer × State := (s.fb, { s with dirty := false })

/-- `is_dirty()` (R303): a peek. -/
def isDirty (s : State) : Bool := s.dirty

/-- `is_sound_playing()` (R304): ST > 0. -/
def isSoundPlaying (s : State) : Bool := decide (0 < s.st.toNat)

/-- The fault report: the record a faulted or halted `step` or `run_frame` gives the host (R322, R323). -/
def faultReport (s : State) : Option FaultRecord := s.halt

/-- The spec's own numeric codes 1..7 of the causes (R321); labels only (D22). -/
def FaultCause.code : FaultCause → Nat
  | .invalidOpcode => 1
  | .stackOverflow => 2
  | .stackUnderflow => 3
  | .fetchOutOfBounds => 4
  | .readOutOfBounds => 5
  | .writeOutOfBounds => 6
  | .keyIndexOutOfRange => 7

/-! ### Frames (spec/60_exceptions.md R300) -/

/-- A timer's decrement, saturating at 0. -/
def countDown (b : Byte) : Byte := if 0 < b.toNat then b - 1 else 0

/-- Both timers' decrement, once per frame. -/
def State.tickTimers (s : State) : State := { s with dt := countDown s.dt, st := countDown s.st }

/-- The instruction slots of a frame: steps, ended early by a fault. -/
def runSlots : Nat → State → Result
  | 0, s => .next s
  | k + 1, s =>
    match step s with
    | .next t => if t.halt.isSome then .next t else runSlots k t
    | .fault r => .fault r
    | .refused r => .refused r

/-- `run_frame()` (R300): nothing on a halted core; else the timers tick and the frame's instructions run. -/
def runFrame (s : State) : Result :=
  if s.halt.isSome then .next s else runSlots s.cfg.instructionsPerFrame s.tickTimers

/-! ### Sequences of calls (spec/60_exceptions.md R307) -/

/-- One host call on a core that exists (spec/00_scope.md R10). -/
inductive HostCall where
  | construct (cfg : Cfg) (font : Font) (init : InitState)
  | load (bytes : List Byte)
  | step
  | runFrame
  | keyDown (k : Nat)
  | keyUp (k : Nat)
  | isDown (k : Key)
  | isUp (k : Key)
  | snapshot
  | isDirty
  | isSoundPlaying
  | faultReport
deriving DecidableEq, Repr

/-- What a call answers the host. -/
inductive HostReply where
  | done
  | error (e : HostError)
  | grid (fb : Framebuffer)
  | flag (b : Bool)
  | report (r : Option FaultRecord)
deriving DecidableEq, Repr

/-- A call that may be refused: on a host error the state stays (spec/60_exceptions.md R305). -/
def settleCall (s : State) : Except HostError State → HostReply × State
  | .ok t => (.done, t)
  | .error e => (.error e, s)

/-- A core operation as a call: its reply is the fault report. A step never faults or is refused in the host's sense, so
the last two cases leave the state. -/
def settleRun (s : State) : Result → HostReply × State
  | .next t => (.report t.halt, t)
  | .fault _ => (.report s.halt, s)
  | .refused _ => (.report s.halt, s)

/-- The reply and the state after one call. -/
def call (c : HostCall) (s : State) : HostReply × State :=
  match c with
  | .construct cfg font init => (.done, Sys2Proof.Machine.construct cfg font init)
  | .load bytes => settleCall s (Sys2Proof.Machine.load bytes s)
  | .step => settleRun s (Sys2Proof.Machine.step s)
  | .runFrame => settleRun s (Sys2Proof.Machine.runFrame s)
  | .keyDown k => settleCall s (keyDownCall k s)
  | .keyUp k => settleCall s (keyUpCall k s)
  | .isDown k => (.flag (Sys2Proof.Machine.isDown k s), s)
  | .isUp k => (.flag (Sys2Proof.Machine.isUp k s), s)
  | .snapshot => (.grid (framebufferSnapshot s).1, (framebufferSnapshot s).2)
  | .isDirty => (.flag (Sys2Proof.Machine.isDirty s), s)
  | .isSoundPlaying => (.flag (Sys2Proof.Machine.isSoundPlaying s), s)
  | .faultReport => (.report (Sys2Proof.Machine.faultReport s), s)

/-- The state after a sequence of calls: any call may stand between any two others (R307; D18). -/
def runCalls : List HostCall → State → State
  | [], s => s
  | c :: cs, s => runCalls cs (call c s).2

end Sys2Proof.Machine
end

