-- ==== Sys2Proof/Safety.lean ====
section
/-! DEFINITION. What counts as a safe state and as the end of a run, the machine's invariant, and the terms in which
statements say what an instruction does and what it leaves unchanged. -/

namespace Sys2Proof.Machine

/-! ### Runs -/

/-- A state without a fault: the core is not halted (spec/00_scope.md R19). -/
def State.running (s : State) : Prop := s.halt = none

/-- A run sits at the stop address e: PC = e and the word there is a jump to itself (spec/60_exceptions.md R308). -/
def State.atStop (s : State) (e : BitVec 12) : Prop :=
  s.pc = zext16 e ∧ wordOfBytes (s.byteAt e.toNat) (s.byteAt (e.toNat + 1)) = encode (.jp e)

/-! ### The invariant -/

/-- The return addresses in use, S[0]..S[SP-1] (spec/10_state.md R26), are post-fetch values of PC: at most 0x1000
(spec/30_encoding.md R105). -/
def State.returnsBounded (s : State) : Prop :=
  ∀ k : Nat, ∀ h : k < 16, k < s.sp.val → (s.stack[k]'h).toNat ≤ 0x1000

/-- The invariant of the machine: PC and the return addresses in use are within spec/30_encoding.md R105's bounds, and
memory is in its canonical form. -/
structure State.Inv (s : State) : Prop where
  pc_le : s.pc.toNat ≤ 0x10FE
  returns : s.returnsBounded
  mem_wf : Memory.wf s.mem = true

/-! ### Effects and frames -/

/-- Which pieces of state an instruction may write, PC and HALT apart. The keys and the configuration are not among
them: no instruction writes either (spec/10_state.md R31, R34). -/
structure Writes where
  regs : Reg → Bool := fun _ => false
  index : Bool := false
  stack : Bool := false
  delay : Bool := false
  sound : Bool := false
  /-- The addresses stored to. -/
  bytes : Nat → Bool := fun _ => false
  screen : Bool := false
  latch : Bool := false
  /-- The model's own counter. -/
  fresh : Bool := false

/-- Every register but x. -/
def onlyReg (x : Reg) : Reg → Bool := fun r => r == x

/-- The len addresses from base. -/
def addressRange (base len : Nat) : Nat → Bool := fun a => decide (base ≤ a ∧ a < base + len)

/-- t agrees with s on everything but PC and what w lists: an instruction's frame, HALT included. Memory is compared
byte by byte. -/
structure Unchanged (w : Writes) (s t : State) : Prop where
  regs : ∀ r, w.regs r = false → t.reg r = s.reg r
  index : w.index = false → t.i = s.i
  stack : w.stack = false → t.sp = s.sp ∧ t.stack = s.stack
  delay : w.delay = false → t.dt = s.dt
  sound : w.sound = false → t.st = s.st
  bytes : ∀ a, w.bytes a = false → t.byteAt a = s.byteAt a
  screen : w.screen = false → t.fb = s.fb ∧ t.dirty = s.dirty
  keys : t.keys = s.keys
  latch : w.latch = false → t.latch = s.latch
  halt : t.halt = s.halt
  cfg : t.cfg = s.cfg
  fresh : w.fresh = false → t.fresh = s.fresh

/-- PC is at a + k, mod 2^16, where a was the instruction's own address. -/
def pcMoved (k : Nat) (s t : State) : Prop := t.pc.toNat = (s.pc.toNat + k) % 65536

/-- The instruction completes: exec answers a next state, and post holds of it. -/
def Completes (i : Instr) (s : State) (post : State → Prop) : Prop := ∃ t, exec i s = .next t ∧ post t

/-- The instruction raises a fault with the word and address given: the next state is the one before the fetch, all of
it, with HALT set (spec/00_scope.md R14). -/
def Raises (i : Instr) (s : State) (cause : FaultCause) (word : Word) (addr : Option Nat) : Prop :=
  exec i s = .next { s with halt := some { cause := cause, pc := s.pc, word := some word, addr := addr } }

/-! ### Writers of the registers, and sprites -/

/-- The registers an instruction may write, by the lists of spec/10_state.md R22. -/
def writesRegister : Instr → Reg → Bool
  | .ldImm x _, r | .addImm x _, r | .ldReg x _, r | .orReg x _, r | .andReg x _, r | .xorReg x _, r | .rnd x _, r
  | .ldVxDt x, r | .ldVxK x, r => r == x
  | .addReg x _, r | .subReg x _, r | .shrReg x _, r | .subnReg x _, r | .shlReg x _, r => r == x || r == regF
  | .drw _ _ _, r => r == regF
  | .ldVxMem x, r => decide (r ≤ x)
  | .cls, _ | .ret, _ | .jp _, _ | .call _, _ | .seImm _ _, _ | .sneImm _ _, _ | .seReg _ _, _ | .sneReg _ _, _
  | .ldI _, _ | .jpV0 _ _, _ | .skp _, _ | .sknp _, _ | .ldDtVx _, _ | .ldStVx _, _ | .addI _, _ | .ldF _, _
  | .ldB _, _ | .ldMemVx _, _ => false

/-- Whether the sprite of n rows at I, drawn from column c and row r, has a 1 bit at the pixel (px, py): bit 7 of a byte
is its leftmost pixel, row 0 is at the top (spec/44_display.md R251). -/
def State.spriteBit (s : State) (c r n px py : Nat) : Bool :=
  decide (c ≤ px ∧ px < c + 8 ∧ r ≤ py ∧ py < r + n) && (s.byteAt (s.i.toNat + (py - r))).getLsbD (7 - (px - c))

end Sys2Proof.Machine
end

