-- ==== Sys2Proof/Certificates/Slice0/Obligations.lean ====
section
/-! DEFINITION. The statements for the provers. Each docstring says what is stated and which rule of spec/ it is. The
terms Completes, Raises, Unchanged, pcMoved and spriteBit are Sys2Proof/Safety.lean's. -/

open Sys2Proof Sys2Proof.Machine

/-- For every well-formed instruction, with every operand at every value, decode of encode is that instruction. The bit patterns are the spec's decision D1 (log entry 1). -/
def Obligations.DecodeOfEncodeIsTheInstruction : Prop :=
  ∀ i : Instr, i.wellFormed = true → decode (encode i) = .ok i

/-- Whatever word decodes to an instruction, that instruction is well formed and its encoding is that very word: no bit of a legal word is dropped (strict decoding is the spec's decision D4, log entry 15). -/
def Obligations.EncodeOfDecodeIsTheWord : Prop :=
  ∀ (w : Word) (i : Instr), decode w = .ok i → i.wellFormed = true ∧ encode i = w

/-- A word that decodes to an instruction belongs to that instruction's row of the opcode table; a word that belongs to a row of the table decodes to an instruction of that row; and no word belongs to two rows. The rows are the spec's decision D1 (log entry 1). -/
def Obligations.DecodeAgreesWithOpcodeTable : Prop :=
  (∀ (w : Word) (i : Instr), decode w = .ok i → rowOf i ∈ opcodeTable ∧ (rowOf i).matches w = true) ∧
  (∀ (w : Word) (r : OpcodeRow), r ∈ opcodeTable → r.matches w = true → ∃ i, decode w = .ok i ∧ rowOf i = r) ∧
  (∀ (w : Word) (r q : OpcodeRow), r ∈ opcodeTable → q ∈ opcodeTable → r.matches w = true → q.matches w = true → r = q)

/-- A word is refused by the decoder, with the word named, if and only if it is a class 0 word other than 00E0 and 00EE, a class 5 or 9 word whose low nibble is not 0, a class 8 word whose low nibble is 8 to D or F, a class E word whose low byte is neither 9E nor A1, or a class F word whose low byte is not one of the nine (the spec's decisions D3 and D4, log entry 15). -/
def Obligations.IllegalWordsByClass : Prop :=
  ∀ w : Word, decode w = .error (.invalid w) ↔
    (w.toNat / 4096 = 0 ∧ w.toNat ≠ 0x00E0 ∧ w.toNat ≠ 0x00EE) ∨
    ((w.toNat / 4096 = 5 ∨ w.toNat / 4096 = 9) ∧ w.toNat % 16 ≠ 0) ∨
    (w.toNat / 4096 = 8 ∧ 8 ≤ w.toNat % 16 ∧ w.toNat % 16 ≠ 0xE) ∨
    (w.toNat / 4096 = 0xE ∧ w.toNat % 256 ≠ 0x9E ∧ w.toNat % 256 ≠ 0xA1) ∨
    (w.toNat / 4096 = 0xF ∧ w.toNat % 256 ∉ [0x07, 0x0A, 0x15, 0x18, 0x1E, 0x29, 0x33, 0x55, 0x65])

/-- One word of each family, written out from the pattern column (the spec's decision D1, log entry 1), decodes to its instruction: 00EE, B345, 812E, F265, D125 and F30A. -/
def Obligations.WrittenOutWordsDecode : Prop :=
  decode 0x00EE = .ok .ret ∧ decode 0xB345 = .ok (.jpV0 0x345 3) ∧ decode 0x812E = .ok (.shlReg 1 2) ∧
  decode 0xF265 = .ok (.ldVxMem 2) ∧ decode 0xD125 = .ok (.drw 1 2 5) ∧ decode 0xF30A = .ok (.ldVxK 3)

/-- On a core that is not halted, with both bytes of the fetch inside memory, where the big-endian word at PC decodes to an instruction, step is exec of that instruction in that state. exec takes the state from before the fetch and advances PC itself (log entry 5). -/
def Obligations.StepRunsTheDecodedInstruction : Prop :=
  ∀ (s : State) (i : Instr), s.halt = none → s.pc.toNat + 1 ≤ 0xFFF →
    decode (BitVec.ofNat 16 (256 * (s.byteAt s.pc.toNat).toNat + (s.byteAt (s.pc.toNat + 1)).toNat)) = .ok i →
    step s = exec i s

/-- On a core that is not halted, with PC + 1 above 0xFFF, step leaves the state but for HALT, which records FetchOutOfBounds, PC, no word and the lowest out-of-range byte address. The fault is the spec's decision D27 (log entry 16), and that all else stays is its D8 (log entry 6). -/
def Obligations.FetchOutOfBoundsRaises : Prop :=
  ∀ s : State, s.halt = none → s.pc.toNat + 1 > 0xFFF →
    step s = .next { s with halt := some ⟨.fetchOutOfBounds, s.pc, none, some (max s.pc.toNat 0x1000)⟩ }

/-- On a core that is not halted, with both bytes of the fetch inside memory, where the word at PC matches no row of the opcode table, step leaves the state but for HALT, which records InvalidOpcode, PC, the word and no address. That every fixed bit of a row is matched is the spec's decision D4 (log entry 15), and that the whole state stays but for HALT, PC included, is its D8 (log entry 6). -/
def Obligations.IllegalWordRaisesInvalidOpcode : Prop :=
  ∀ (s : State) (w : Word), s.halt = none → s.pc.toNat + 1 ≤ 0xFFF →
    w.toNat = 256 * (s.byteAt s.pc.toNat).toNat + (s.byteAt (s.pc.toNat + 1)).toNat →
    (∀ r ∈ opcodeTable, r.matches w = false) →
    step s = .next { s with halt := some ⟨.invalidOpcode, s.pc, some w, none⟩ }

/-- Where HALT holds a record, the calls step and run_frame leave the whole state, timers included, and their reply is that record (the spec's decisions D8 and D29, log entry 6). -/
def Obligations.HaltedCoreDoesNothing : Prop :=
  ∀ (s : State) (r : FaultRecord), s.halt = some r →
    call .step s = (.report (some r), s) ∧ call .runFrame s = (.report (some r), s)

/-- No state, reachable or not, makes step or run_frame end in a fault or a refusal of the model: every fault of the core is recorded in HALT (log entry 6). -/
def Obligations.StepAlwaysHasANextState : Prop :=
  ∀ s : State, (∃ t, step s = .next t) ∧ (∃ t, runFrame s = .next t)

/-- If a step of a core that is not halted leaves HALT set, the next state is the state before with HALT added, so no register, stack entry, byte, pixel, flag, latch or PC has changed, and the record's pc is the PC the step began at (the spec's decision D8, log entry 6). -/
def Obligations.FaultsArePrecise : Prop :=
  ∀ (s t : State) (r : FaultRecord), step s = .next t → s.halt = none → t.halt = some r →
    t = { s with halt := some r } ∧ r.pc = s.pc

/-- If executing an instruction sets HALT, it is CALL with a full stack, RET with an empty one, Dxyn or Fx65 with a byte of its range above 0xFFF, Fx33 or Fx55 with one, or Ex9E or ExA1 with V[x] above 15, and the record's cause is the one listed. No other instruction faults (the causes, the check of every row of a sprite, addresses that do not wrap and the bound on a key index are the spec's decisions D22, D9, D10 and D11, log entries 7, 12, 13 and 14). -/
def Obligations.OnlyTheListedCausesFault : Prop :=
  ∀ (i : Instr) (s t : State) (r : FaultRecord), exec i s = .next t → s.halt = none → t.halt = some r →
    ((∃ nnn, i = .call nnn) ∧ s.sp.val = 16 ∧ r.cause = .stackOverflow) ∨
    (i = .ret ∧ s.sp.val = 0 ∧ r.cause = .stackUnderflow) ∨
    ((∃ x y n, i = .drw x y n ∧ 0 < n.toNat ∧ s.i.toNat + (n.toNat - 1) > 0xFFF) ∧ r.cause = .readOutOfBounds) ∨
    ((∃ x, i = .ldVxMem x ∧ s.i.toNat + x.val > 0xFFF) ∧ r.cause = .readOutOfBounds) ∨
    ((∃ x, i = .ldB x) ∧ s.i.toNat + 2 > 0xFFF ∧ r.cause = .writeOutOfBounds) ∨
    ((∃ x, i = .ldMemVx x ∧ s.i.toNat + x.val > 0xFFF) ∧ r.cause = .writeOutOfBounds) ∨
    ((∃ x, (i = .skp x ∨ i = .sknp x) ∧ (s.reg x).toNat > 15) ∧ r.cause = .keyIndexOutOfRange)

/-- From every state where PC is at most 0x10FE, every return address in use is at most 0x1000 and memory is in its canonical form, a step gives a state where all three hold again. The bounds are the ones the spec derives for the reachable values of PC. -/
def Obligations.StepKeepsTheInvariant : Prop :=
  ∀ s t : State, s.Inv → step s = .next t → t.Inv

/-- PC, the return addresses in use and memory are within the invariant in the state after reset. -/
def Obligations.ResetMeetsTheInvariant : Prop :=
  State.reset.Inv

/-- From every state that meets the invariant, any sequence of host calls (steps, frames, loads, keys, snapshots, constructions whose initial memory is in canonical form) leads to a state that meets it again. -/
def Obligations.HostCallsKeepTheInvariant : Prop :=
  ∀ (s : State) (cs : List HostCall), s.Inv →
    (∀ cfg font init, HostCall.construct cfg font init ∈ cs → Memory.wf init.mem = true) → (runCalls cs s).Inv

/-- The configuration record is the same before and after any host call other than construct, steps and frames among them. -/
def Obligations.ConfigurationNeverChanges : Prop :=
  ∀ (s : State) (c : HostCall), (∀ cfg font init, c ≠ .construct cfg font init) → (call c s).2.cfg = s.cfg

/-- A host call on a halted core leaves the record in HALT as it is unless it is a construct or a load that succeeds: a load refused as too large leaves it too (the spec's decision D8, log entry 6). -/
def Obligations.HaltIsStickyUntilLoad : Prop :=
  ∀ (s : State) (c : HostCall) (r : FaultRecord), s.halt = some r → (call c s).2.halt ≠ some r →
    (∃ cfg font init, c = .construct cfg font init) ∨ (∃ bytes, c = .load bytes ∧ bytes.length ≤ 3584)

/-- If executing an instruction changes a register, the register is V[x] of one of the instructions listed as writing V[x], one of V[0] to V[x] of Fx65, or VF of one of the six instructions listed as writing VF as a side effect. -/
def Obligations.OnlyListedInstructionsWriteRegisters : Prop :=
  ∀ (i : Instr) (s t : State) (r : Reg), exec i s = .next t → t.reg r ≠ s.reg r → writesRegister i r = true

/-- If executing an instruction changes SP the instruction is CALL or RET, and if it changes a stack entry the instruction is CALL and the entry is S[SP]. That the stack stands apart from memory, and that the entries at SP and above keep their values, is the model's choice (the spec's decision D31 and O23, log entry 28). -/
def Obligations.OnlyCallAndReturnTouchTheStack : Prop :=
  ∀ (i : Instr) (s t : State), exec i s = .next t →
    (t.sp ≠ s.sp → i = .ret ∨ ∃ nnn, i = .call nnn) ∧
    (∀ k : Fin 16, t.stack[k] ≠ s.stack[k] → (∃ nnn, i = .call nnn) ∧ k.val = s.sp.val)

/-- If executing an instruction changes a byte of memory, the instruction is Fx33 and the byte is one of the three at I, or Fx55 and the byte is one of the x + 1 at I; memory is taken to be in its canonical form. -/
def Obligations.OnlyDigitsAndBlockStoreWriteMemory : Prop :=
  ∀ (i : Instr) (s t : State) (a : Nat), Memory.wf s.mem = true → exec i s = .next t → t.byteAt a ≠ s.byteAt a →
    (∃ x, i = .ldB x ∧ s.indexBase ≤ a ∧ a < s.indexBase + 3) ∨
    (∃ x, i = .ldMemVx x ∧ s.indexBase ≤ a ∧ a < s.indexBase + (x.val + 1))

/-- If executing an instruction changes FB or DIRTY, the instruction is 00E0 or Dxyn; and no instruction makes a set DIRTY false. -/
def Obligations.OnlyClearAndDrawChangeTheScreen : Prop :=
  ∀ (i : Instr) (s t : State), exec i s = .next t →
    ((t.fb ≠ s.fb ∨ t.dirty ≠ s.dirty) → i = .cls ∨ ∃ x y n, i = .drw x y n) ∧ (s.dirty = true → t.dirty = true)

/-- Executing an instruction leaves every key state; if it changes LATCH it is Fx0A, and a latch it sets names a key that is down; if it changes DT it is Fx15, and if it changes ST it is Fx18. -/
def Obligations.KeypadAndTimerWriters : Prop :=
  ∀ (i : Instr) (s t : State), exec i s = .next t →
    t.keys = s.keys ∧
    (t.latch ≠ s.latch → (∃ x, i = .ldVxK x) ∧ ∀ k, t.latch = some k → s.keyDown k = true) ∧
    (t.dt ≠ s.dt → ∃ x, i = .ldDtVx x) ∧ (t.st ≠ s.st → ∃ x, i = .ldStVx x)

/-- With SP above 0, 00EE completes with SP one less and PC the entry at the new SP, the stack entries and all else unchanged. With SP = 0 it raises StackUnderflow with the word 00EE, and nothing changes. -/
def Obligations.ReturnPopsTheStack : Prop :=
  ∀ s : State,
    (∀ h : 0 < s.sp.val, Completes .ret s fun t =>
      t.sp.val = s.sp.val - 1 ∧ t.stack = s.stack ∧
      t.pc = s.stack[s.sp.val - 1]'(by have := s.sp.isLt; omega) ∧ Unchanged { stack := true } s t) ∧
    (s.sp.val = 0 → Raises .ret s .stackUnderflow 0x00EE none)

/-- 1nnn completes for every nnn with PC = nnn zero-extended, and nothing else changes. Where nnn is its own address, the whole state is as before. Where nnn is 0xFFF and the core is not halted, the next step raises FetchOutOfBounds: this last is the spec's decision D27 (log entry 16), and that all else stays then is its D8 (log entry 6). -/
def Obligations.JumpSetsPc : Prop :=
  ∀ (s : State) (nnn : BitVec 12),
    (Completes (.jp nnn) s fun t => t.pc.toNat = nnn.toNat ∧ Unchanged {} s t ∧
      (s.halt = none → nnn.toNat = 0xFFF →
        step t = .next { t with halt := some ⟨.fetchOutOfBounds, t.pc, none, some 0x1000⟩ })) ∧
    (nnn.toNat = s.pc.toNat → exec (.jp nnn) s = .next s)

/-- With SP below 16, 2nnn completes with the entry at the old SP equal to its own address plus 2 mod 2^16, the other entries as before, SP one more, PC = nnn, and nothing else changed. With SP = 16 it raises StackOverflow with its word, and nothing changes. -/
def Obligations.CallPushesTheReturnAddress : Prop :=
  ∀ (s : State) (nnn : BitVec 12),
    (s.sp.val < 16 → Completes (.call nnn) s fun t =>
      (∀ k : Fin 16, k.val = s.sp.val → t.stack[k].toNat = (s.pc.toNat + 2) % 65536) ∧
      (∀ k : Fin 16, k.val ≠ s.sp.val → t.stack[k] = s.stack[k]) ∧
      t.sp.val = s.sp.val + 1 ∧ t.pc.toNat = nnn.toNat ∧ Unchanged { stack := true } s t) ∧
    (s.sp.val = 16 → Raises (.call nnn) s .stackOverflow (BitVec.ofNat 16 (0x2000 + nnn.toNat)) none)

/-- From a state with SP below 16, running CALL and then RET gives PC = a + 2 mod 2^16, the old SP, and the old value of every stack entry but the one that was pushed. -/
def Obligations.CallThenReturnComesBack : Prop :=
  ∀ (s : State) (nnn : BitVec 12), s.sp.val < 16 →
    ∃ t u, exec (.call nnn) s = .next t ∧ exec .ret t = .next u ∧ pcMoved 2 s u ∧ u.sp = s.sp ∧
      (∀ k : Fin 16, k.val ≠ s.sp.val → u.stack[k] = s.stack[k]) ∧ Unchanged { stack := true } s u

/-- 3xnn, 4xnn, 5xy0 and 9xy0 complete in every state: PC is at a + 4 where V[x] = nn, V[x] differs from nn, V[x] = V[y], V[x] differs from V[y], respectively, and at a + 2 otherwise, mod 2^16; nothing else changes. -/
def Obligations.SkipsCompareTheirOperands : Prop :=
  ∀ (s : State) (x y : Reg) (nn : Byte),
    (Completes (.seImm x nn) s fun t => pcMoved (if s.reg x = nn then 4 else 2) s t ∧ Unchanged {} s t) ∧
    (Completes (.sneImm x nn) s fun t => pcMoved (if s.reg x = nn then 2 else 4) s t ∧ Unchanged {} s t) ∧
    (Completes (.seReg x y) s fun t => pcMoved (if s.reg x = s.reg y then 4 else 2) s t ∧ Unchanged {} s t) ∧
    (Completes (.sneReg x y) s fun t => pcMoved (if s.reg x = s.reg y then 2 else 4) s t ∧ Unchanged {} s t)

/-- Bnnn, with its x field nnn[11:8], completes in every state: PC = nnn + V[0] with jump_add_offset off, nnn + V[x] with it on, mod 2^16 (never above 0x10FE); nothing else changes. -/
def Obligations.JumpWithOffsetAddsARegister : Prop :=
  ∀ (s : State) (nnn : BitVec 12) (x : Reg), x.val = nnn.toNat / 256 →
    Completes (.jpV0 nnn x) s fun t =>
      t.pc.toNat = nnn.toNat + (if s.cfg.jumpAddOffset then s.reg x else s.reg 0).toNat ∧ t.pc.toNat ≤ 0x10FE ∧
      Unchanged {} s t

/-- 6xnn and 8xy0 to 8xy3 complete for every x and y, F included: V[x] is nn, V[y], or the bitwise OR, AND or XOR of the old V[x] and V[y]; PC is at a + 2; every other register, VF among them, and all else is unchanged. -/
def Obligations.RegisterLoadsAndLogic : Prop :=
  ∀ (s : State) (x y : Reg) (nn : Byte),
    (Completes (.ldImm x nn) s fun t => t.reg x = nn ∧ pcMoved 2 s t ∧ Unchanged { regs := onlyReg x } s t) ∧
    (Completes (.ldReg x y) s fun t => t.reg x = s.reg y ∧ pcMoved 2 s t ∧ Unchanged { regs := onlyReg x } s t) ∧
    (Completes (.orReg x y) s fun t =>
      (t.reg x).toNat = (s.reg x).toNat ||| (s.reg y).toNat ∧ pcMoved 2 s t ∧ Unchanged { regs := onlyReg x } s t) ∧
    (Completes (.andReg x y) s fun t =>
      (t.reg x).toNat = (s.reg x).toNat &&& (s.reg y).toNat ∧ pcMoved 2 s t ∧ Unchanged { regs := onlyReg x } s t) ∧
    (Completes (.xorReg x y) s fun t =>
      (t.reg x).toNat = (s.reg x).toNat ^^^ (s.reg y).toNat ∧ pcMoved 2 s t ∧ Unchanged { regs := onlyReg x } s t)

/-- 7xnn completes for every x: V[x] is V[x] + nn mod 256, PC is at a + 2, and every other register, VF among them unless it is V[x], and all else is unchanged. -/
def Obligations.AddImmediateWrapsWithoutFlag : Prop :=
  ∀ (s : State) (x : Reg) (nn : Byte), Completes (.addImm x nn) s fun t =>
    (t.reg x).toNat = ((s.reg x).toNat + nn.toNat) % 256 ∧ pcMoved 2 s t ∧ Unchanged { regs := onlyReg x } s t

/-- For x other than F and every y, F included: 8xy4 completes with V[x] the sum mod 256 and VF 1 if the sum of the old values is above 255, else 0; PC is at a + 2; nothing else changes. x = F is AliasedFlagIsFlagOrResult. -/
def Obligations.AddRegistersSetsCarry : Prop :=
  ∀ (s : State) (x y : Reg), x ≠ regF → Completes (.addReg x y) s fun t =>
    (t.reg x).toNat = ((s.reg x).toNat + (s.reg y).toNat) % 256 ∧
    (t.reg regF).toNat = (if (s.reg x).toNat + (s.reg y).toNat > 255 then 1 else 0) ∧
    pcMoved 2 s t ∧ Unchanged { regs := fun r => r == x || r == regF } s t

/-- For x other than F and every y, F included: 8xy5 completes with V[x] = V[x] - V[y] mod 256 and VF 1 if V[x] is at least V[y], else 0; 8xy7 with V[x] = V[y] - V[x] mod 256 and VF 1 if V[y] is at least V[x], else 0; PC is at a + 2; nothing else changes. x = F is AliasedFlagIsFlagOrResult. -/
def Obligations.SubtractionsSetNoBorrow : Prop :=
  ∀ (s : State) (x y : Reg), x ≠ regF →
    (Completes (.subReg x y) s fun t =>
      (t.reg x).toNat = ((s.reg x).toNat + 256 - (s.reg y).toNat) % 256 ∧
      (t.reg regF).toNat = (if (s.reg x).toNat ≥ (s.reg y).toNat then 1 else 0) ∧
      pcMoved 2 s t ∧ Unchanged { regs := fun r => r == x || r == regF } s t) ∧
    (Completes (.subnReg x y) s fun t =>
      (t.reg x).toNat = ((s.reg y).toNat + 256 - (s.reg x).toNat) % 256 ∧
      (t.reg regF).toNat = (if (s.reg y).toNat ≥ (s.reg x).toNat then 1 else 0) ∧
      pcMoved 2 s t ∧ Unchanged { regs := fun r => r == x || r == regF } s t)

/-- For x other than F and every y, F included, with v = V[y] under legacy_shift and V[x] otherwise: 8xy6 completes with V[x] = v div 2 and VF = bit 0 of v; 8xyE with V[x] = 2v mod 256 and VF = bit 7 of v; PC is at a + 2; nothing else changes, V[y] among it unless y is x or F. x = F is AliasedFlagOfShifts. -/
def Obligations.ShiftsMoveOneBitIntoFlag : Prop :=
  ∀ (s : State) (x y : Reg) (v : Nat), x ≠ regF → v = (if s.cfg.legacyShift then s.reg y else s.reg x).toNat →
    (Completes (.shrReg x y) s fun t =>
      (t.reg x).toNat = v / 2 ∧ (t.reg regF).toNat = v % 2 ∧
      pcMoved 2 s t ∧ Unchanged { regs := fun r => r == x || r == regF } s t) ∧
    (Completes (.shlReg x y) s fun t =>
      (t.reg x).toNat = 2 * v % 256 ∧ (t.reg regF).toNat = v / 128 ∧
      pcMoved 2 s t ∧ Unchanged { regs := fun r => r == x || r == regF } s t)

/-- For every y, 8Fy4, 8Fy5 and 8Fy7 complete with VF one of the two values the spec admits, the flag or the 8-bit result (which one is a free value: log entry 9); PC is at a + 2; nothing else changes but the model's own counter. -/
def Obligations.AliasedFlagIsFlagOrResult : Prop :=
  ∀ (s : State) (y : Reg),
    (Completes (.addReg regF y) s fun t =>
      ((t.reg regF).toNat = (if (s.reg regF).toNat + (s.reg y).toNat > 255 then 1 else 0) ∨
        (t.reg regF).toNat = ((s.reg regF).toNat + (s.reg y).toNat) % 256) ∧
      pcMoved 2 s t ∧ Unchanged { regs := onlyReg regF, fresh := true } s t) ∧
    (Completes (.subReg regF y) s fun t =>
      ((t.reg regF).toNat = (if (s.reg regF).toNat ≥ (s.reg y).toNat then 1 else 0) ∨
        (t.reg regF).toNat = ((s.reg regF).toNat + 256 - (s.reg y).toNat) % 256) ∧
      pcMoved 2 s t ∧ Unchanged { regs := onlyReg regF, fresh := true } s t) ∧
    (Completes (.subnReg regF y) s fun t =>
      ((t.reg regF).toNat = (if (s.reg y).toNat ≥ (s.reg regF).toNat then 1 else 0) ∨
        (t.reg regF).toNat = ((s.reg y).toNat + 256 - (s.reg regF).toNat) % 256) ∧
      pcMoved 2 s t ∧ Unchanged { regs := onlyReg regF, fresh := true } s t)

/-- For every y, with v the operand before the shift, 8Fy6 completes with VF 0, v div 2 or bit 0 of v, and 8FyE with VF twice bit 7 of v, 2v mod 256 or bit 7 of v (which one is a free value: log entry 10); PC is at a + 2; nothing else changes but the model's own counter. -/
def Obligations.AliasedFlagOfShifts : Prop :=
  ∀ (s : State) (y : Reg) (v : Nat), v = (if s.cfg.legacyShift then s.reg y else s.reg regF).toNat →
    (Completes (.shrReg regF y) s fun t =>
      ((t.reg regF).toNat = 0 ∨ (t.reg regF).toNat = v / 2 ∨ (t.reg regF).toNat = v % 2) ∧
      pcMoved 2 s t ∧ Unchanged { regs := onlyReg regF, fresh := true } s t) ∧
    (Completes (.shlReg regF y) s fun t =>
      ((t.reg regF).toNat = 2 * (v / 128) ∨ (t.reg regF).toNat = 2 * v % 256 ∨ (t.reg regF).toNat = v / 128) ∧
      pcMoved 2 s t ∧ Unchanged { regs := onlyReg regF, fresh := true } s t)

/-- Cxnn completes for every x and nn: V[x] is the draw of this execution (a free value, log entry 8) AND nn, so no bit outside nn is set; the model's own counter advances, so the next draw is another one; PC is at a + 2; nothing else changes. -/
def Obligations.RandomIsMaskedDraw : Prop :=
  ∀ (s : State) (x : Reg) (nn : Byte), Completes (.rnd x nn) s fun t =>
    t.reg x = Config.randDraw s.fresh &&& nn ∧ t.reg x &&& ~~~nn = 0 ∧ t.fresh = s.fresh + 1 ∧
    pcMoved 2 s t ∧ Unchanged { regs := onlyReg x, fresh := true } s t

/-- Annn completes with I = nnn, and Fx29 with I = 0x050 + 5 times V[x], not reduced to a glyph number; PC is at a + 2; nothing else changes. -/
def Obligations.IndexLoads : Prop :=
  ∀ (s : State) (nnn : BitVec 12) (x : Reg),
    (Completes (.ldI nnn) s fun t => t.i.toNat = nnn.toNat ∧ pcMoved 2 s t ∧ Unchanged { index := true } s t) ∧
    (Completes (.ldF x) s fun t =>
      t.i.toNat = 0x050 + 5 * (s.reg x).toNat ∧ pcMoved 2 s t ∧ Unchanged { index := true } s t)

/-- Fx1E completes with I = I + V[x] mod 2^16, PC at a + 2, and nothing else changed: VF is not written (the spec's decision D23, log entry 19). -/
def Obligations.AddToIndexWraps : Prop :=
  ∀ (s : State) (x : Reg), Completes (.addI x) s fun t =>
    t.i.toNat = (s.i.toNat + (s.reg x).toNat) % 65536 ∧ pcMoved 2 s t ∧ Unchanged { index := true } s t

/-- With memory in its canonical form: where I + 2 is at most 0xFFF, Fx33 completes with the three decimal digits of V[x] at I, I + 1 and I + 2, every other byte, I and all else unchanged and PC at a + 2; otherwise it raises WriteOutOfBounds with its word and the lowest out-of-range address. -/
def Obligations.DigitsAreStored : Prop :=
  ∀ (s : State) (x : Reg), Memory.wf s.mem = true →
    (s.indexBase + 2 ≤ 0xFFF → Completes (.ldB x) s fun t =>
      (t.byteAt s.indexBase).toNat = (s.reg x).toNat / 100 ∧
      (t.byteAt (s.indexBase + 1)).toNat = (s.reg x).toNat / 10 % 10 ∧
      (t.byteAt (s.indexBase + 2)).toNat = (s.reg x).toNat % 10 ∧
      pcMoved 2 s t ∧ Unchanged { bytes := addressRange s.indexBase 3 } s t) ∧
    (s.indexBase + 2 > 0xFFF →
      Raises (.ldB x) s .writeOutOfBounds (BitVec.ofNat 16 (0xF033 + 0x100 * x.val)) (some (max s.i.toNat 0x1000)))

/-- With memory in its canonical form: where I + x is at most 0xFFF, Fx55 completes with V[k] at I + k for every k up to x, I = I + x + 1 under memory_increment_index and unchanged otherwise, every other byte and all else unchanged and PC at a + 2; otherwise it raises WriteOutOfBounds with its word and the lowest out-of-range address, I unchanged too. -/
def Obligations.BlockStoreWritesRegisters : Prop :=
  ∀ (s : State) (x : Reg), Memory.wf s.mem = true →
    (s.indexBase + x.val ≤ 0xFFF → Completes (.ldMemVx x) s fun t =>
      (∀ k : Reg, k ≤ x → t.byteAt (s.indexBase + k.val) = s.reg k) ∧
      t.i.toNat = (if s.cfg.memoryIncrementIndex then s.i.toNat + x.val + 1 else s.i.toNat) ∧
      pcMoved 2 s t ∧ Unchanged { index := true, bytes := addressRange s.indexBase (x.val + 1) } s t) ∧
    (s.indexBase + x.val > 0xFFF →
      Raises (.ldMemVx x) s .writeOutOfBounds (BitVec.ofNat 16 (0xF055 + 0x100 * x.val)) (some (max s.i.toNat 0x1000)))

/-- Where I + x is at most 0xFFF, Fx65 completes with V[k] the byte at I + k for every k up to x, I = I + x + 1 under memory_increment_index and unchanged otherwise, the other registers and all else unchanged and PC at a + 2; otherwise it raises ReadOutOfBounds with its word and the lowest out-of-range address. -/
def Obligations.BlockLoadReadsRegisters : Prop :=
  ∀ (s : State) (x : Reg),
    (s.indexBase + x.val ≤ 0xFFF → Completes (.ldVxMem x) s fun t =>
      (∀ k : Reg, k ≤ x → t.reg k = s.byteAt (s.indexBase + k.val)) ∧
      t.i.toNat = (if s.cfg.memoryIncrementIndex then s.i.toNat + x.val + 1 else s.i.toNat) ∧
      pcMoved 2 s t ∧ Unchanged { index := true, regs := fun r => decide (r ≤ x) } s t) ∧
    (s.indexBase + x.val > 0xFFF →
      Raises (.ldVxMem x) s .readOutOfBounds (BitVec.ofNat 16 (0xF065 + 0x100 * x.val)) (some (max s.i.toNat 0x1000)))

/-- For Dxyn with n above 0, Fx33, Fx55 and Fx65, where some address of the n, 3 or x + 1 bytes at I is above 0xFFF: the next state is the state before with only HALT set, and the record's cause is WriteOutOfBounds for Fx33 and Fx55 and ReadOutOfBounds for the others, its pc the instruction's own address, its word the instruction's and its addr the lowest address of the range that is above 0xFFF. The host's write primitive, where some address of its range (or its address, for no bytes) is above 0xFFF, is refused as BadAddress and gives no new state. These are choices: that all else stays is the spec's decision D8 (log entry 6), that clipped rows of a sprite are checked too is D9 (log entry 12), that addresses do not wrap is D10 (log entry 13), the record's fields are D22 (log entry 7), and BadAddress for a write that runs past the end is read from the spec (log entry 32). -/
def Obligations.RangeIsCheckedBeforeAnything : Prop :=
  (∀ (s : State) (i : Instr) (len a : Nat),
    ((∃ x y n, i = .drw x y n ∧ len = n.toNat) ∨ (∃ x, i = .ldB x ∧ len = 3) ∨
      (∃ x, (i = .ldMemVx x ∨ i = .ldVxMem x) ∧ len = x.val + 1)) →
    s.i.toNat ≤ a → a < s.i.toNat + len → a > 0xFFF → (∀ b, s.i.toNat ≤ b → b < a → b ≤ 0xFFF) →
    ∃ cause, exec i s = .next { s with halt := some ⟨cause, s.pc, some (encode i), some a⟩ } ∧
      ((∃ x, i = .ldB x ∨ i = .ldMemVx x) → cause = .writeOutOfBounds) ∧
      ((∃ x y n, i = .drw x y n ∨ i = .ldVxMem x) → cause = .readOutOfBounds)) ∧
  (∀ (s : State) (address : Nat) (bytes : List Byte) (k : Nat), k < max bytes.length 1 → address + k > 0xFFF →
    hostWrite address bytes s = .error .badAddress)

/-- From a state with memory in its canonical form and I + x at most 0xFFF, run Fx55, then take any state with the same memory and I set back, and run Fx65 with the same x: V[0] to V[x] hold their values from before the store. -/
def Obligations.StoreThenLoadRestoresRegisters : Prop :=
  ∀ (s t u : State) (x : Reg), Memory.wf s.mem = true → s.indexBase + x.val ≤ 0xFFF →
    exec (.ldMemVx x) s = .next t → u.mem = t.mem → u.i = s.i →
    Completes (.ldVxMem x) u fun v => ∀ k : Reg, k ≤ x → v.reg k = s.reg k

/-- From a state with memory in its canonical form, after Fx55 completes, a fetch at I + k reads the word V[k], V[k+1], high byte first, for every k below x: the store is seen with nothing between (the spec's decision D21, log entry 30). -/
def Obligations.StoredBytesAreFetched : Prop :=
  ∀ (s t : State) (x : Reg) (k : Nat) (h : k + 1 < 16), Memory.wf s.mem = true → s.indexBase + x.val ≤ 0xFFF →
    k + 1 ≤ x.val → exec (.ldMemVx x) s = .next t →
    ∃ w, (t.setPc (BitVec.ofNat 16 (s.indexBase + k))).fetch = .ok w ∧
      w.toNat = 256 * (s.reg ⟨k, by omega⟩).toNat + (s.reg ⟨k + 1, h⟩).toNat

/-- 00E0 completes in every state with every pixel off and DIRTY set, on a blank screen too; PC is at a + 2; VF and all else are unchanged. -/
def Obligations.ClearScreenBlanks : Prop :=
  ∀ s : State, Completes .cls s fun t =>
    (∀ px py, t.pixel px py = false) ∧ t.dirty = true ∧ pcMoved 2 s t ∧ Unchanged { screen := true } s t

/-- For a pixel inside the grid: Toggle answers whether it was on, flips it, leaves every other pixel, sets DIRTY and changes nothing else; a second Toggle of the same pixel answers the opposite and every pixel is as at the start. -/
def Obligations.ToggleTwiceRestoresThePixel : Prop :=
  ∀ (s : State) (px py : Nat), px < 64 → py < 32 →
    (s.toggle px py).1 = s.pixel px py ∧
    (s.toggle px py).2.pixel px py = !s.pixel px py ∧
    (∀ qx qy, (qx, qy) ≠ (px, py) → (s.toggle px py).2.pixel qx qy = s.pixel qx qy) ∧
    { (s.toggle px py).2 with fb := s.fb, dirty := s.dirty } = s ∧ (s.toggle px py).2.dirty = true ∧
    ((s.toggle px py).2.toggle px py).1 = !s.pixel px py ∧
    ((s.toggle px py).2.toggle px py).2.fb = s.fb ∧ ((s.toggle px py).2.toggle px py).2.dirty = true

/-- For a column of 64 or more, or a row of 32 or more, Toggle answers false and leaves the whole state. -/
def Obligations.ToggleOutsideTheGridDoesNothing : Prop :=
  ∀ (s : State) (px py : Nat), px ≥ 64 ∨ py ≥ 32 → s.toggle px py = (false, s)

/-- Where every row address is inside memory, Dxyn completes for every x, y and n: with c = V[x] mod 64 and r = V[y] mod 32 (a coordinate taken from VF may be 0 instead: a free value, log entry 11), every pixel of the grid is its old value XOR the sprite's bit there, nothing wraps; VF is 1 if some sprite bit met a pixel that was on and else 0; DIRTY is set if some sprite bit fell inside the grid and else as before; PC is at a + 2; nothing else changes. Where n is above 0 and some row address is above 0xFFF, a clipped row included, it raises ReadOutOfBounds with its word and the lowest out-of-range address, and nothing else changes (the spec's decisions D8, D9 and D10, log entries 6, 12 and 13). -/
def Obligations.DrawSpriteIsXorWithCollision : Prop :=
  ∀ (s : State) (x y : Reg) (n : BitVec 4),
   ((n.toNat = 0 ∨ s.i.toNat + (n.toNat - 1) ≤ 0xFFF) →
    ∃ c r : Nat, (c = (s.reg x).toNat % 64 ∨ (x = regF ∧ c = 0)) ∧ (r = (s.reg y).toNat % 32 ∨ (y = regF ∧ r = 0)) ∧
      Completes (.drw x y n) s fun t =>
        (∀ px py, px < 64 → py < 32 → t.pixel px py = (s.pixel px py ^^ s.spriteBit c r n.toNat px py)) ∧
        (t.reg regF = 0 ∨ t.reg regF = 1) ∧
        (t.reg regF = 1 ↔
          ∃ px py, px < 64 ∧ py < 32 ∧ s.pixel px py = true ∧ s.spriteBit c r n.toNat px py = true) ∧
        (t.dirty = true ↔ s.dirty = true ∨ ∃ px py, px < 64 ∧ py < 32 ∧ s.spriteBit c r n.toNat px py = true) ∧
        pcMoved 2 s t ∧
        Unchanged { regs := onlyReg regF, screen := true, fresh := decide (x = regF ∨ y = regF) } s t) ∧
   (0 < n.toNat → s.i.toNat + (n.toNat - 1) > 0xFFF →
    Raises (.drw x y n) s .readOutOfBounds (BitVec.ofNat 16 (0xD000 + 0x100 * x.val + 0x10 * y.val + n.toNat))
      (some (max s.i.toNat 0x1000)))

/-- Where V[x] is a key number k, Ex9E completes with PC at a + 4 if the key is down and a + 2 if not, ExA1 the other way round, and nothing else changes. Where V[x] is above 15 each raises KeyIndexOutOfRange with its word: this is the model's choice (the spec's decision D11, log entry 14; that all else stays is its D8, log entry 6). -/
def Obligations.KeySkipsTestTheKey : Prop :=
  ∀ (s : State) (x : Reg),
    (∀ k : Key, (s.reg x).toNat = k.val →
      (Completes (.skp x) s fun t => pcMoved (if s.keyDown k then 4 else 2) s t ∧ Unchanged {} s t) ∧
      (Completes (.sknp x) s fun t => pcMoved (if s.keyDown k then 2 else 4) s t ∧ Unchanged {} s t)) ∧
    ((s.reg x).toNat > 15 →
      Raises (.skp x) s .keyIndexOutOfRange (BitVec.ofNat 16 (0xE09E + 0x100 * x.val)) none ∧
      Raises (.sknp x) s .keyIndexOutOfRange (BitVec.ofNat 16 (0xE0A1 + 0x100 * x.val)) none)

/-- Fx07 completes with V[x] = DT, Fx15 with DT = V[x] and Fx18 with ST = V[x], and the sound then plays exactly where V[x] is not 0; PC is at a + 2; nothing else changes. -/
def Obligations.TimerCopies : Prop :=
  ∀ (s : State) (x : Reg),
    (Completes (.ldVxDt x) s fun t => t.reg x = s.dt ∧ pcMoved 2 s t ∧ Unchanged { regs := onlyReg x } s t) ∧
    (Completes (.ldDtVx x) s fun t => t.dt = s.reg x ∧ pcMoved 2 s t ∧ Unchanged { delay := true } s t) ∧
    (Completes (.ldStVx x) s fun t => t.st = s.reg x ∧ (isSoundPlaying t = true ↔ s.reg x ≠ 0) ∧ pcMoved 2 s t ∧
      Unchanged { sound := true } s t)

/-- With no key latched and none down, Fx0A holds: PC stays at the instruction and nothing changes. With no key latched and keys down, it latches the lowest of them and holds. With a key latched and down, it holds and nothing changes. With a key latched and up, V[x] is its index, the latch is cleared and PC is at a + 2. Nothing else changes. -/
def Obligations.WaitForKeyProtocol : Prop :=
  ∀ (s : State) (x : Reg),
    (s.latch = none → (∀ k, s.keyDown k = false) → exec (.ldVxK x) s = .next s) ∧
    (∀ k : Key, s.latch = none → s.keyDown k = true → (∀ j : Key, j < k → s.keyDown j = false) →
      Completes (.ldVxK x) s fun t => t.latch = some k ∧ t.pc = s.pc ∧ Unchanged { latch := true } s t) ∧
    (∀ k : Key, s.latch = some k → s.keyDown k = true → exec (.ldVxK x) s = .next s) ∧
    (∀ k : Key, s.latch = some k → s.keyDown k = false → Completes (.ldVxK x) s fun t =>
      (t.reg x).toNat = k.val ∧ t.latch = none ∧ pcMoved 2 s t ∧ Unchanged { regs := onlyReg x, latch := true } s t)

/-- On a core that is not halted, run_frame equals that many steps from the state whose DT and ST are each one less, or 0 where they were 0, and which is otherwise the same: ending early at a fault makes no difference, since a halted core does nothing (log entries 4 and 6). -/
def Obligations.FrameTicksThenSteps : Prop :=
  ∀ s : State, s.halt = none → ∃ u : State,
    u.dt.toNat = s.dt.toNat - 1 ∧ u.st.toNat = s.st.toNat - 1 ∧ { u with dt := s.dt, st := s.st } = s ∧
    runFrame s = Host.Core.run Sys2Proof.core s.cfg.instructionsPerFrame u

/-- With memory in its canonical form: a sequence of at most 3584 bytes loads, its bytes from 0x200 up, every other byte as before, PC = 0x200, HALT cleared, all else unchanged; a longer one is refused as ProgramTooLarge (what load leaves alone is the spec's decision D16, log entry 17). -/
def Obligations.LoadPlacesTheProgram : Prop :=
  ∀ (s : State) (bytes : List Byte), Memory.wf s.mem = true →
    (bytes.length ≤ 3584 → ∃ t, load bytes s = .ok t ∧
      (∀ k (h : k < bytes.length), t.byteAt (0x200 + k) = bytes[k]) ∧
      (∀ a, a < 0x200 ∨ 0x200 + bytes.length ≤ a → t.byteAt a = s.byteAt a) ∧
      t.pc = 0x200 ∧ t.halt = none ∧ { t with mem := s.mem, pc := s.pc, halt := s.halt } = s) ∧
    (bytes.length > 3584 → load bytes s = .error .programTooLarge)

/-- For a key number up to 15, key_down and key_up succeed, the key is down or up, every other key and all else, LATCH and HALT among it, is as before; above 15 each is refused as InvalidKeyIndex with the state unchanged (the spec's decision D25, log entry 18). -/
def Obligations.KeyCallsSetOneKey : Prop :=
  ∀ (s : State) (k : Nat),
    (∀ h : k < 16, ∃ t u, call (.keyDown k) s = (.done, t) ∧ call (.keyUp k) s = (.done, u) ∧
      t.keyDown ⟨k, h⟩ = true ∧ u.keyDown ⟨k, h⟩ = false ∧
      (∀ j : Key, j.val ≠ k → t.keyDown j = s.keyDown j ∧ u.keyDown j = s.keyDown j) ∧
      { t with keys := s.keys } = s ∧ { u with keys := s.keys } = s) ∧
    (k > 15 → call (.keyDown k) s = (.error .invalidKeyIndex, s) ∧ call (.keyUp k) s = (.error .invalidKeyIndex, s))

/-- The call is_sound_playing answers true, and leaves the state, exactly where ST is not 0. On a core that is not halted every frame, whatever its count of instructions, runs them from the state that the tick of the timers gives, and there is_sound_playing is false exactly where ST was 0 or 1. With instructions_per_frame 0, which the spec's decision D17 admits (log entry 27), that is the state after the frame. -/
def Obligations.SoundPlaysWhileTimerRuns : Prop :=
  (∀ s : State, call .isSoundPlaying s = (.flag true, s) ↔ s.st ≠ 0) ∧
  (∀ s : State, s.halt = none →
    runFrame s = Host.Core.run Sys2Proof.core s.cfg.instructionsPerFrame s.tickTimers ∧
    (isSoundPlaying s.tickTimers = false ↔ s.st.toNat ≤ 1)) ∧
  (∀ s t : State, s.halt = none → s.cfg.instructionsPerFrame = 0 → runFrame s = .next t →
    (isSoundPlaying t = false ↔ s.st.toNat ≤ 1))

/-- Whatever the call and the error, a call that replies with a host error leaves the state as it was, HALT included; and only load, key_down and key_up can. -/
def Obligations.HostErrorsChangeNothing : Prop :=
  ∀ (s t : State) (c : HostCall) (e : HostError), call c s = (.error e, t) →
    t = s ∧ ((∃ bytes, c = .load bytes ∧ e = .programTooLarge) ∨
      (∃ k, (c = .keyDown k ∨ c = .keyUp k) ∧ e = .invalidKeyIndex))

/-- For every configuration, font and initial state with memory in canonical form: construct gives PC = 0x200, SP = 0, HALT none, the configuration, the font's byte i at 0x050 + i, and every other byte and element its initial value; and with the reference configuration, the reference font and clean_reset it is the model's reset state (the spec's decisions D5 and D6, log entries 2, 3 and 4). -/
def Obligations.ConstructSetsTheResetState : Prop :=
  (∀ (cfg : Cfg) (font : Font) (init : InitState) (s : State), Memory.wf init.mem = true → s = construct cfg font init →
    s.pc = 0x200 ∧ s.sp = 0 ∧ s.halt = none ∧ s.cfg = cfg ∧
    (∀ k (h : k < 80), s.byteAt (0x050 + k) = font[k]) ∧
    (∀ a, a < 0x050 ∨ 0x0A0 ≤ a → s.byteAt a = Memory.read init.mem a) ∧
    s.v = init.v ∧ s.i = init.i ∧ s.stack = init.stack ∧ s.dt = init.dt ∧ s.st = init.st ∧ s.fb = init.fb ∧
    s.dirty = init.dirty ∧ s.keys = init.keys ∧ s.latch = init.latch) ∧
  construct Cfg.reference Font.reference InitState.cleanReset = State.reset

/-- After reset every register, I, SP, every stack entry and both timers are 0, PC is 0x200, the font stands at 0x050 to 0x09F and every other byte is 0, every pixel is off, DIRTY is false, every key is up, LATCH and HALT are none, no quirk is on and a frame has 11 instructions. PC is the source's value, and so are the place of the font and the 11; the others are the spec's reference choices (log entries 2, 3 and 4). -/
def Obligations.ResetValues : Prop :=
  (∀ r, State.reset.reg r = 0) ∧ State.reset.i = 0 ∧ State.reset.pc = 0x200 ∧ State.reset.sp = 0 ∧
  (∀ k : Fin 16, State.reset.stack[k] = 0) ∧ State.reset.dt = 0 ∧ State.reset.st = 0 ∧
  (∀ k (h : k < 80), State.reset.byteAt (0x050 + k) = Font.reference[k]) ∧
  (∀ a, a < 0x050 ∨ 0x0A0 ≤ a → State.reset.byteAt a = 0) ∧ (∀ px py, State.reset.pixel px py = false) ∧
  State.reset.dirty = false ∧ (∀ k, State.reset.keyDown k = false) ∧ State.reset.latch = none ∧
  State.reset.halt = none ∧ State.reset.cfg.legacyShift = false ∧ State.reset.cfg.jumpAddOffset = false ∧
  State.reset.cfg.memoryIncrementIndex = false ∧ State.reset.cfg.instructionsPerFrame = 11

/-- In every state, halted or not: framebuffer_snapshot answers with every pixel of FB as it is, clears DIRTY and leaves all else, and is_dirty then answers false; is_dirty answers DIRTY, is_down and is_up answer whether the key is down or up, the fault report answers the record in HALT, and each of the four leaves the whole state. That a snapshot is the content of FB without a layout is the spec's decision D30 (log entry 25); keys above 15 are not asked about (log entry 33). -/
def Obligations.SnapshotClearsDirtyAndPeeksChangeNothing : Prop :=
  ∀ s : State,
    (∃ fb u, call .snapshot s = (.grid fb, u) ∧ (∀ px py, Framebuffer.pixel fb px py = s.pixel px py) ∧
      u.dirty = false ∧ { u with dirty := s.dirty } = s ∧ call .isDirty u = (.flag false, u)) ∧
    call .isDirty s = (.flag s.dirty, s) ∧
    (∀ k : Key, call (.isDown k) s = (.flag (s.keyDown k), s) ∧ call (.isUp k) s = (.flag (!s.keyDown k), s)) ∧
    call .faultReport s = (.report s.halt, s)
end

