-- ==== Sys2Proof/Laws/Decode.lean ====
section
/-! SUPPORT. The fields of a word and the word of its fields (spec/30_encoding.md R90): each field of an encoded word is
the operand placed there, and a word is made of its fields. -/

namespace Sys2Proof

theorem toNat_append_eq {m n : Nat} (a : BitVec m) (b : BitVec n) : (a ++ b).toNat = a.toNat * 2 ^ n + b.toNat := by
  rw [BitVec.toNat_append, ← Nat.shiftLeft_add_eq_or_of_lt b.isLt, Nat.shiftLeft_eq]

theorem wordXYN_toNat (op : BitVec 4) (x y : Reg) (n : BitVec 4) :
    (wordXYN op x y n).toNat = 4096 * op.toNat + 256 * x.val + 16 * y.val + n.toNat := by
  have h : (wordXYN op x y n).toNat = ((op.toNat * 2 ^ 4 + x.val) * 2 ^ 4 + y.val) * 2 ^ 4 + n.toNat := by
    unfold wordXYN; rw [toNat_append_eq, toNat_append_eq, toNat_append_eq]; rfl
  omega

theorem wordXNN_toNat (op : BitVec 4) (x : Reg) (nn : Byte) :
    (wordXNN op x nn).toNat = 4096 * op.toNat + 256 * x.val + nn.toNat := by
  have h : (wordXNN op x nn).toNat = (op.toNat * 2 ^ 4 + x.val) * 2 ^ 8 + nn.toNat := by
    unfold wordXNN; rw [toNat_append_eq, toNat_append_eq]; rfl
  omega

theorem wordNNN_toNat (op : BitVec 4) (nnn : BitVec 12) : (wordNNN op nnn).toNat = 4096 * op.toNat + nnn.toNat := by
  unfold wordNNN; rw [toNat_append_eq]; omega

theorem fieldOp_toNat (w : Word) : (fieldOp w).toNat = w.toNat / 4096 := by
  have := w.isLt; simp [fieldOp, Nat.shiftRight_eq_div_pow]; omega
theorem fieldX_val (w : Word) : (fieldX w).val = w.toNat / 256 % 16 := by
  simp [fieldX, Nat.shiftRight_eq_div_pow]
theorem fieldY_val (w : Word) : (fieldY w).val = w.toNat / 16 % 16 := by
  simp [fieldY, Nat.shiftRight_eq_div_pow]
theorem fieldN_toNat (w : Word) : (fieldN w).toNat = w.toNat % 16 := by simp [fieldN]
theorem fieldNN_toNat (w : Word) : (fieldNN w).toNat = w.toNat % 256 := by simp [fieldNN]
theorem fieldNNN_toNat (w : Word) : (fieldNNN w).toNat = w.toNat % 4096 := by simp [fieldNNN]
theorem highNibble_val (nnn : BitVec 12) : (highNibble nnn).val = nnn.toNat / 256 := by
  have := nnn.isLt; simp [highNibble, Nat.shiftRight_eq_div_pow]; omega

section
variable (op n : BitVec 4) (x y : Reg) (nn : Byte) (nnn : BitVec 12)

@[simp] theorem fieldOp_wordXYN : fieldOp (wordXYN op x y n) = op := by
  apply BitVec.eq_of_toNat_eq; rw [fieldOp_toNat, wordXYN_toNat]; omega
@[simp] theorem fieldX_wordXYN : fieldX (wordXYN op x y n) = x := by
  apply Fin.ext; rw [fieldX_val, wordXYN_toNat]; omega
@[simp] theorem fieldY_wordXYN : fieldY (wordXYN op x y n) = y := by
  apply Fin.ext; rw [fieldY_val, wordXYN_toNat]; omega
@[simp] theorem fieldN_wordXYN : fieldN (wordXYN op x y n) = n := by
  apply BitVec.eq_of_toNat_eq; rw [fieldN_toNat, wordXYN_toNat]; omega
@[simp] theorem fieldOp_wordXNN : fieldOp (wordXNN op x nn) = op := by
  apply BitVec.eq_of_toNat_eq; rw [fieldOp_toNat, wordXNN_toNat]; omega
@[simp] theorem fieldX_wordXNN : fieldX (wordXNN op x nn) = x := by
  apply Fin.ext; rw [fieldX_val, wordXNN_toNat]; omega
@[simp] theorem fieldNN_wordXNN : fieldNN (wordXNN op x nn) = nn := by
  apply BitVec.eq_of_toNat_eq; rw [fieldNN_toNat, wordXNN_toNat]; omega
@[simp] theorem fieldOp_wordNNN : fieldOp (wordNNN op nnn) = op := by
  apply BitVec.eq_of_toNat_eq; rw [fieldOp_toNat, wordNNN_toNat]; omega
@[simp] theorem fieldNNN_wordNNN : fieldNNN (wordNNN op nnn) = nnn := by
  apply BitVec.eq_of_toNat_eq; rw [fieldNNN_toNat, wordNNN_toNat]; omega
@[simp] theorem fieldX_wordNNN : fieldX (wordNNN op nnn) = highNibble nnn := by
  apply Fin.ext; rw [fieldX_val, wordNNN_toNat, highNibble_val]; omega

end

theorem wordXYN_fields (w : Word) : wordXYN (fieldOp w) (fieldX w) (fieldY w) (fieldN w) = w := by
  apply BitVec.eq_of_toNat_eq; rw [wordXYN_toNat, fieldOp_toNat, fieldX_val, fieldY_val, fieldN_toNat]; omega
theorem wordXNN_fields (w : Word) : wordXNN (fieldOp w) (fieldX w) (fieldNN w) = w := by
  apply BitVec.eq_of_toNat_eq; rw [wordXNN_toNat, fieldOp_toNat, fieldX_val, fieldNN_toNat]; omega
theorem wordNNN_fields (w : Word) : wordNNN (fieldOp w) (fieldNNN w) = w := by
  apply BitVec.eq_of_toNat_eq; rw [wordNNN_toNat, fieldOp_toNat, fieldNNN_toNat]; omega
theorem highNibble_fieldNNN (w : Word) : highNibble (fieldNNN w) = fieldX w := by
  apply Fin.ext; rw [highNibble_val, fieldNNN_toNat, fieldX_val]; omega

theorem wordOfBytes_toNat (hi lo : Byte) : (wordOfBytes hi lo).toNat = 256 * hi.toNat + lo.toNat := by
  unfold wordOfBytes; rw [toNat_append_eq]; omega

/-- Laying a word out as bytes and combining them again gives the word (spec/20_memory.md R61). -/
theorem wordOfBytes_bytesOfWord (w : Word) : wordOfBytes (w.extractLsb' 8 8) (w.extractLsb' 0 8) = w := by
  apply BitVec.eq_of_toNat_eq
  have := w.isLt
  rw [wordOfBytes_toNat]; simp [Nat.shiftRight_eq_div_pow]; omega

end Sys2Proof
end

