-- ==== Sys2Proof/Laws/Memory.lean ====
section
/-! SUPPORT. The laws of memory: a read after a write, the canonical form kept by every write, and equal memories are
equal lists. -/

namespace Sys2Proof.Machine

/-! ### The canonical form -/

theorem Memory.wfFrom_cons {lo k : Nat} {b : Byte} {rest : List Host.Cell} :
    Memory.wfFrom lo ((k, b) :: rest) = true ↔
      lo ≤ k ∧ k < memSize ∧ b ≠ Memory.unlisted k ∧ Memory.wfFrom (k + 1) rest = true := by
  simp [Memory.wfFrom, and_assoc]

theorem Memory.wfFrom_mono {lo lo' : Nat} (h : lo' ≤ lo) : ∀ {m : List Host.Cell},
    Memory.wfFrom lo m = true → Memory.wfFrom lo' m = true
  | [], _ => rfl
  | (_, _) :: _, hm => by
    rw [Memory.wfFrom_cons] at hm ⊢
    exact ⟨Nat.le_trans h hm.1, hm.2⟩

/-- Below its first address a canonical list is unlisted. -/
theorem Memory.read_below {a : Nat} : ∀ {m : List Host.Cell} {lo : Nat},
    Memory.wfFrom lo m = true → a < lo → Memory.read m a = Memory.unlisted a
  | [], _, _, _ => rfl
  | (k, _) :: _, _, hm, ha => by
    rw [Memory.wfFrom_cons] at hm
    have hk : k ≠ a := by omega
    rw [Memory.read, if_neg hk]
    exact Memory.read_below hm.2.2.2 (by omega)

theorem Memory.wfFrom_write {a : Nat} {b : Byte} (ha : a < memSize) : ∀ {m : List Host.Cell} {lo : Nat},
    Memory.wfFrom lo m = true → lo ≤ a → Memory.wfFrom lo (Memory.write m a b) = true
  | [], lo, _, hlo => by
    unfold Memory.write
    split
    · rfl
    · rw [Memory.wfFrom_cons]; exact ⟨hlo, ha, by assumption, rfl⟩
  | (k, c) :: rest, lo, hm, hlo => by
    have hm' := Memory.wfFrom_cons.1 hm
    unfold Memory.write
    split
    · rename_i hak
      split
      · exact hm
      · rw [Memory.wfFrom_cons]
        exact ⟨hlo, ha, by assumption, Memory.wfFrom_cons.2 ⟨by omega, hm'.2⟩⟩
    · split
      · rename_i hak
        subst hak
        split
        · exact Memory.wfFrom_mono (by omega) hm'.2.2.2
        · rw [Memory.wfFrom_cons]; exact ⟨hlo, ha, by assumption, hm'.2.2.2⟩
      · rw [Memory.wfFrom_cons]
        exact ⟨hm'.1, hm'.2.1, hm'.2.2.1, Memory.wfFrom_write ha hm'.2.2.2 (by omega)⟩

/-- A write inside the address space keeps the canonical form. -/
theorem Memory.wf_write {m : List Host.Cell} {a : Nat} {b : Byte} (ha : a < memSize) (hm : Memory.wf m = true) :
    Memory.wf (Memory.write m a b) = true := Memory.wfFrom_write ha hm (Nat.zero_le a)

/-- A range of writes inside the address space keeps the canonical form. -/
theorem Memory.wf_writeBytes : ∀ {bs : List Byte} {m : List Host.Cell} {a : Nat},
    Memory.wf m = true → a + bs.length ≤ memSize → Memory.wf (Memory.writeBytes m a bs) = true
  | [], _, _, hm, _ => hm
  | b :: bs, m, a, hm, ha => by
    rw [List.length_cons] at ha
    show Memory.wf (Memory.writeBytes (Memory.write m a b) (a + 1) bs) = true
    exact Memory.wf_writeBytes (Memory.wf_write (by omega) hm) (by omega)

/-! ### Reads after writes -/

theorem Memory.read_write_from {a b' : Nat} {b : Byte} : ∀ {m : List Host.Cell} {lo : Nat},
    Memory.wfFrom lo m = true → Memory.read (Memory.write m a b) b' = if b' = a then b else Memory.read m b'
  | [], _, _ => by
    unfold Memory.write
    split
    · rename_i h; split
      · rename_i e; subst e; rw [h]; rfl
      · rfl
    · by_cases e : b' = a
      · subst e; simp [Memory.read]
      · have e' : a ≠ b' := fun x => e x.symm
        simp [Memory.read, e, e']
  | (k, c) :: rest, lo, hm => by
    have hm' := Memory.wfFrom_cons.1 hm
    by_cases e : b' = a
    · subst e
      simp only [if_true]
      unfold Memory.write
      split
      · rename_i hak
        split
        · rename_i hb
          have hk : k ≠ b' := by omega
          rw [Memory.read, if_neg hk, hb]
          exact Memory.read_below hm'.2.2.2 (by omega)
        · rw [Memory.read, if_pos rfl]
      · split
        · split
          · rename_i hb
            rw [hb]; exact Memory.read_below hm'.2.2.2 (by omega)
          · rw [Memory.read, if_pos rfl]
        · have hk : k ≠ b' := by omega
          rw [Memory.read, if_neg hk, Memory.read_write_from hm'.2.2.2, if_pos rfl]
    · have e' : a ≠ b' := fun x => e x.symm
      simp only [if_neg e]
      unfold Memory.write
      split
      · split
        · rfl
        · rw [Memory.read, if_neg e']
      · split
        · rename_i hak
          subst hak
          split
          · rw [Memory.read, if_neg e']
          · rw [Memory.read, if_neg e', Memory.read, if_neg e']
        · rw [Memory.read, Memory.read, Memory.read_write_from hm'.2.2.2, if_neg e]

/-- A read after a write gives the value written at its address and leaves every other address alone
(spec/20_memory.md R68). -/
theorem Memory.read_write {m : List Host.Cell} (hm : Memory.wf m = true) (a a' : Nat) (b : Byte) :
    Memory.read (Memory.write m a b) a' = if a' = a then b else Memory.read m a' := Memory.read_write_from hm

/-- A read after a range of writes: byte k of the range at its address, every other address as before. -/
theorem Memory.read_writeBytes : ∀ {bs : List Byte} {m : List Host.Cell} {a : Nat} (_ : Memory.wf m = true)
    (_ : a + bs.length ≤ memSize) (a' : Nat),
    Memory.read (Memory.writeBytes m a bs) a' =
      if h : a ≤ a' ∧ a' - a < bs.length then bs[a' - a]'h.2 else Memory.read m a'
  | [], _, _, _, _, _ => by simp [Memory.writeBytes]
  | b :: bs, m, a, hm, ha, a' => by
    rw [List.length_cons] at ha
    rw [Memory.writeBytes, Memory.read_writeBytes (Memory.wf_write (by omega) hm) (by omega)]
    by_cases h1 : a' = a
    · subst h1
      rw [dif_neg (by omega), Memory.read_write hm, if_pos rfl, dif_pos (by simp)]
      simp
    · by_cases h2 : a + 1 ≤ a' ∧ a' - (a + 1) < bs.length
      · have h3 : a ≤ a' ∧ a' - a < (b :: bs).length := by rw [List.length_cons]; omega
        have h4 : a' - a = a' - (a + 1) + 1 := by omega
        rw [dif_pos h2, dif_pos h3]
        simp only [h4, List.getElem_cons_succ]
      · have h3 : ¬(a ≤ a' ∧ a' - a < (b :: bs).length) := by rw [List.length_cons]; omega
        rw [dif_neg h2, dif_neg h3, Memory.read_write hm, if_neg h1]

/-- Outside a range of writes every address reads as before, in any list. -/
theorem Memory.read_writeBytes_outside {bs : List Byte} {m : List Host.Cell} {a a' : Nat} (hm : Memory.wf m = true)
    (ha : a + bs.length ≤ memSize) (h : a' < a ∨ a + bs.length ≤ a') :
    Memory.read (Memory.writeBytes m a bs) a' = Memory.read m a' := by
  rw [Memory.read_writeBytes hm ha, dif_neg (by omega)]

/-! ### Equal memories are equal data -/

theorem Memory.ext_from : ∀ {m m' : List Host.Cell} {lo : Nat}, Memory.wfFrom lo m = true → Memory.wfFrom lo m' = true →
    (∀ a, Memory.read m a = Memory.read m' a) → m = m'
  | [], [], _, _, _, _ => rfl
  | [], (k, c) :: rest, _, _, h', h => by
    have := Memory.wfFrom_cons.1 h'
    have e := h k
    rw [Memory.read, Memory.read, if_pos rfl] at e
    exact absurd e.symm this.2.2.1
  | (k, c) :: rest, [], _, h', _, h => by
    have := Memory.wfFrom_cons.1 h'
    have e := h k
    rw [Memory.read, Memory.read, if_pos rfl] at e
    exact absurd e this.2.2.1
  | (k, c) :: rest, (j, d) :: rest', _, hm, hm', h => by
    have h1 := Memory.wfFrom_cons.1 hm
    have h2 := Memory.wfFrom_cons.1 hm'
    have hk := h k
    have hj := h j
    rw [Memory.read, if_pos rfl] at hk
    rw [Memory.read.eq_2 j j d rest', if_pos rfl] at hj
    have e : k = j := by
      rcases Nat.lt_trichotomy k j with lt | eq | gt
      · exfalso
        rw [Memory.read, if_neg (by omega), Memory.read_below h2.2.2.2 (by omega)] at hk
        exact h1.2.2.1 hk
      · exact eq
      · exfalso
        rw [Memory.read, if_neg (by omega), Memory.read_below h1.2.2.2 (by omega)] at hj
        exact h2.2.2.1 hj.symm
    subst e
    rw [Memory.read, if_pos rfl] at hk
    subst hk
    have : rest = rest' := by
      refine Memory.ext_from h1.2.2.2 h2.2.2.2 fun a => ?_
      by_cases ha : a < k + 1
      · rw [Memory.read_below h1.2.2.2 ha, Memory.read_below h2.2.2.2 ha]
      · have e := h a
        rwa [Memory.read, if_neg (by omega), Memory.read, if_neg (by omega)] at e
    rw [this]

/-- Two canonical memories that read alike are equal lists. -/
theorem Memory.ext_of_wf {m m' : List Host.Cell} (hm : Memory.wf m = true) (hm' : Memory.wf m' = true)
    (h : ∀ a, Memory.read m a = Memory.read m' a) : m = m' := Memory.ext_from hm hm' h

/-! ### The range check -/

/-- Everything the range check can answer: none where the whole range lies inside memory, else its lowest address
outside (spec/20_memory.md R66). -/
theorem rangeFault_cases (base len : Nat) :
    (rangeFault base len = none ∧ (len = 0 ∨ base + (len - 1) ≤ 0xFFF)) ∨
    (rangeFault base len = some (max base 0x1000) ∧ 0 < len ∧ 0xFFF < base + (len - 1)) := by
  unfold rangeFault
  by_cases h : len = 0
  · simp [h]
  · by_cases h' : base + (len - 1) ≤ 0xFFF
    · simp [h, h']
    · exact .inr ⟨by rw [if_neg h, if_neg h'], by omega, by omega⟩

end Sys2Proof.Machine
end

