-- ==== Sys2Proof/Laws/State.lean ====
section
/-! SUPPORT. One lemma per field per update of the state, and per accessor per update that leaves its field: none of
these needs a record update unfolded. -/

namespace Sys2Proof.Machine

variable (s : State)

/-! ### setReg -/

@[simp] theorem State.setReg_v (x : Reg) (b : Byte) : (s.setReg x b).v = s.v.set x b := rfl
@[simp] theorem State.setReg_i (x : Reg) (b : Byte) : (s.setReg x b).i = s.i := rfl
@[simp] theorem State.setReg_pc (x : Reg) (b : Byte) : (s.setReg x b).pc = s.pc := rfl
@[simp] theorem State.setReg_sp (x : Reg) (b : Byte) : (s.setReg x b).sp = s.sp := rfl
@[simp] theorem State.setReg_stack (x : Reg) (b : Byte) : (s.setReg x b).stack = s.stack := rfl
@[simp] theorem State.setReg_dt (x : Reg) (b : Byte) : (s.setReg x b).dt = s.dt := rfl
@[simp] theorem State.setReg_st (x : Reg) (b : Byte) : (s.setReg x b).st = s.st := rfl
@[simp] theorem State.setReg_mem (x : Reg) (b : Byte) : (s.setReg x b).mem = s.mem := rfl
@[simp] theorem State.setReg_fb (x : Reg) (b : Byte) : (s.setReg x b).fb = s.fb := rfl
@[simp] theorem State.setReg_dirty (x : Reg) (b : Byte) : (s.setReg x b).dirty = s.dirty := rfl
@[simp] theorem State.setReg_keys (x : Reg) (b : Byte) : (s.setReg x b).keys = s.keys := rfl
@[simp] theorem State.setReg_latch (x : Reg) (b : Byte) : (s.setReg x b).latch = s.latch := rfl
@[simp] theorem State.setReg_halt (x : Reg) (b : Byte) : (s.setReg x b).halt = s.halt := rfl
@[simp] theorem State.setReg_cfg (x : Reg) (b : Byte) : (s.setReg x b).cfg = s.cfg := rfl
@[simp] theorem State.setReg_fresh (x : Reg) (b : Byte) : (s.setReg x b).fresh = s.fresh := rfl
@[simp] theorem State.setReg_byteAt (x : Reg) (b : Byte) (a0 : Nat) : (s.setReg x b).byteAt a0 = s.byteAt a0 := rfl
@[simp] theorem State.setReg_keyDown (x : Reg) (b : Byte) (k : Key) : (s.setReg x b).keyDown k = s.keyDown k := rfl
@[simp] theorem State.setReg_pixel (x : Reg) (b : Byte) (px py : Nat) : (s.setReg x b).pixel px py = s.pixel px py := rfl

/-! ### setI -/

@[simp] theorem State.setI_v (w : Word) : (s.setI w).v = s.v := rfl
@[simp] theorem State.setI_i (w : Word) : (s.setI w).i = w := rfl
@[simp] theorem State.setI_pc (w : Word) : (s.setI w).pc = s.pc := rfl
@[simp] theorem State.setI_sp (w : Word) : (s.setI w).sp = s.sp := rfl
@[simp] theorem State.setI_stack (w : Word) : (s.setI w).stack = s.stack := rfl
@[simp] theorem State.setI_dt (w : Word) : (s.setI w).dt = s.dt := rfl
@[simp] theorem State.setI_st (w : Word) : (s.setI w).st = s.st := rfl
@[simp] theorem State.setI_mem (w : Word) : (s.setI w).mem = s.mem := rfl
@[simp] theorem State.setI_fb (w : Word) : (s.setI w).fb = s.fb := rfl
@[simp] theorem State.setI_dirty (w : Word) : (s.setI w).dirty = s.dirty := rfl
@[simp] theorem State.setI_keys (w : Word) : (s.setI w).keys = s.keys := rfl
@[simp] theorem State.setI_latch (w : Word) : (s.setI w).latch = s.latch := rfl
@[simp] theorem State.setI_halt (w : Word) : (s.setI w).halt = s.halt := rfl
@[simp] theorem State.setI_cfg (w : Word) : (s.setI w).cfg = s.cfg := rfl
@[simp] theorem State.setI_fresh (w : Word) : (s.setI w).fresh = s.fresh := rfl
@[simp] theorem State.setI_reg (w : Word) (r : Reg) : (s.setI w).reg r = s.reg r := rfl
@[simp] theorem State.setI_byteAt (w : Word) (a0 : Nat) : (s.setI w).byteAt a0 = s.byteAt a0 := rfl
@[simp] theorem State.setI_keyDown (w : Word) (k : Key) : (s.setI w).keyDown k = s.keyDown k := rfl
@[simp] theorem State.setI_pixel (w : Word) (px py : Nat) : (s.setI w).pixel px py = s.pixel px py := rfl

/-! ### setPc -/

@[simp] theorem State.setPc_v (w : Word) : (s.setPc w).v = s.v := rfl
@[simp] theorem State.setPc_i (w : Word) : (s.setPc w).i = s.i := rfl
@[simp] theorem State.setPc_pc (w : Word) : (s.setPc w).pc = w := rfl
@[simp] theorem State.setPc_sp (w : Word) : (s.setPc w).sp = s.sp := rfl
@[simp] theorem State.setPc_stack (w : Word) : (s.setPc w).stack = s.stack := rfl
@[simp] theorem State.setPc_dt (w : Word) : (s.setPc w).dt = s.dt := rfl
@[simp] theorem State.setPc_st (w : Word) : (s.setPc w).st = s.st := rfl
@[simp] theorem State.setPc_mem (w : Word) : (s.setPc w).mem = s.mem := rfl
@[simp] theorem State.setPc_fb (w : Word) : (s.setPc w).fb = s.fb := rfl
@[simp] theorem State.setPc_dirty (w : Word) : (s.setPc w).dirty = s.dirty := rfl
@[simp] theorem State.setPc_keys (w : Word) : (s.setPc w).keys = s.keys := rfl
@[simp] theorem State.setPc_latch (w : Word) : (s.setPc w).latch = s.latch := rfl
@[simp] theorem State.setPc_halt (w : Word) : (s.setPc w).halt = s.halt := rfl
@[simp] theorem State.setPc_cfg (w : Word) : (s.setPc w).cfg = s.cfg := rfl
@[simp] theorem State.setPc_fresh (w : Word) : (s.setPc w).fresh = s.fresh := rfl
@[simp] theorem State.setPc_reg (w : Word) (r : Reg) : (s.setPc w).reg r = s.reg r := rfl
@[simp] theorem State.setPc_byteAt (w : Word) (a0 : Nat) : (s.setPc w).byteAt a0 = s.byteAt a0 := rfl
@[simp] theorem State.setPc_keyDown (w : Word) (k : Key) : (s.setPc w).keyDown k = s.keyDown k := rfl
@[simp] theorem State.setPc_pixel (w : Word) (px py : Nat) : (s.setPc w).pixel px py = s.pixel px py := rfl

/-! ### advance -/

@[simp] theorem State.advance_v : s.advance.v = s.v := rfl
@[simp] theorem State.advance_i : s.advance.i = s.i := rfl
@[simp] theorem State.advance_pc : s.advance.pc = s.pc + 2 := rfl
@[simp] theorem State.advance_sp : s.advance.sp = s.sp := rfl
@[simp] theorem State.advance_stack : s.advance.stack = s.stack := rfl
@[simp] theorem State.advance_dt : s.advance.dt = s.dt := rfl
@[simp] theorem State.advance_st : s.advance.st = s.st := rfl
@[simp] theorem State.advance_mem : s.advance.mem = s.mem := rfl
@[simp] theorem State.advance_fb : s.advance.fb = s.fb := rfl
@[simp] theorem State.advance_dirty : s.advance.dirty = s.dirty := rfl
@[simp] theorem State.advance_keys : s.advance.keys = s.keys := rfl
@[simp] theorem State.advance_latch : s.advance.latch = s.latch := rfl
@[simp] theorem State.advance_halt : s.advance.halt = s.halt := rfl
@[simp] theorem State.advance_cfg : s.advance.cfg = s.cfg := rfl
@[simp] theorem State.advance_fresh : s.advance.fresh = s.fresh := rfl
@[simp] theorem State.advance_reg (r : Reg) : s.advance.reg r = s.reg r := rfl
@[simp] theorem State.advance_byteAt (a0 : Nat) : s.advance.byteAt a0 = s.byteAt a0 := rfl
@[simp] theorem State.advance_keyDown (k : Key) : s.advance.keyDown k = s.keyDown k := rfl
@[simp] theorem State.advance_pixel (px py : Nat) : s.advance.pixel px py = s.pixel px py := rfl

/-! ### setDt -/

@[simp] theorem State.setDt_v (b : Byte) : (s.setDt b).v = s.v := rfl
@[simp] theorem State.setDt_i (b : Byte) : (s.setDt b).i = s.i := rfl
@[simp] theorem State.setDt_pc (b : Byte) : (s.setDt b).pc = s.pc := rfl
@[simp] theorem State.setDt_sp (b : Byte) : (s.setDt b).sp = s.sp := rfl
@[simp] theorem State.setDt_stack (b : Byte) : (s.setDt b).stack = s.stack := rfl
@[simp] theorem State.setDt_dt (b : Byte) : (s.setDt b).dt = b := rfl
@[simp] theorem State.setDt_st (b : Byte) : (s.setDt b).st = s.st := rfl
@[simp] theorem State.setDt_mem (b : Byte) : (s.setDt b).mem = s.mem := rfl
@[simp] theorem State.setDt_fb (b : Byte) : (s.setDt b).fb = s.fb := rfl
@[simp] theorem State.setDt_dirty (b : Byte) : (s.setDt b).dirty = s.dirty := rfl
@[simp] theorem State.setDt_keys (b : Byte) : (s.setDt b).keys = s.keys := rfl
@[simp] theorem State.setDt_latch (b : Byte) : (s.setDt b).latch = s.latch := rfl
@[simp] theorem State.setDt_halt (b : Byte) : (s.setDt b).halt = s.halt := rfl
@[simp] theorem State.setDt_cfg (b : Byte) : (s.setDt b).cfg = s.cfg := rfl
@[simp] theorem State.setDt_fresh (b : Byte) : (s.setDt b).fresh = s.fresh := rfl
@[simp] theorem State.setDt_reg (b : Byte) (r : Reg) : (s.setDt b).reg r = s.reg r := rfl
@[simp] theorem State.setDt_byteAt (b : Byte) (a0 : Nat) : (s.setDt b).byteAt a0 = s.byteAt a0 := rfl
@[simp] theorem State.setDt_keyDown (b : Byte) (k : Key) : (s.setDt b).keyDown k = s.keyDown k := rfl
@[simp] theorem State.setDt_pixel (b : Byte) (px py : Nat) : (s.setDt b).pixel px py = s.pixel px py := rfl

/-! ### setSt -/

@[simp] theorem State.setSt_v (b : Byte) : (s.setSt b).v = s.v := rfl
@[simp] theorem State.setSt_i (b : Byte) : (s.setSt b).i = s.i := rfl
@[simp] theorem State.setSt_pc (b : Byte) : (s.setSt b).pc = s.pc := rfl
@[simp] theorem State.setSt_sp (b : Byte) : (s.setSt b).sp = s.sp := rfl
@[simp] theorem State.setSt_stack (b : Byte) : (s.setSt b).stack = s.stack := rfl
@[simp] theorem State.setSt_dt (b : Byte) : (s.setSt b).dt = s.dt := rfl
@[simp] theorem State.setSt_st (b : Byte) : (s.setSt b).st = b := rfl
@[simp] theorem State.setSt_mem (b : Byte) : (s.setSt b).mem = s.mem := rfl
@[simp] theorem State.setSt_fb (b : Byte) : (s.setSt b).fb = s.fb := rfl
@[simp] theorem State.setSt_dirty (b : Byte) : (s.setSt b).dirty = s.dirty := rfl
@[simp] theorem State.setSt_keys (b : Byte) : (s.setSt b).keys = s.keys := rfl
@[simp] theorem State.setSt_latch (b : Byte) : (s.setSt b).latch = s.latch := rfl
@[simp] theorem State.setSt_halt (b : Byte) : (s.setSt b).halt = s.halt := rfl
@[simp] theorem State.setSt_cfg (b : Byte) : (s.setSt b).cfg = s.cfg := rfl
@[simp] theorem State.setSt_fresh (b : Byte) : (s.setSt b).fresh = s.fresh := rfl
@[simp] theorem State.setSt_reg (b : Byte) (r : Reg) : (s.setSt b).reg r = s.reg r := rfl
@[simp] theorem State.setSt_byteAt (b : Byte) (a0 : Nat) : (s.setSt b).byteAt a0 = s.byteAt a0 := rfl
@[simp] theorem State.setSt_keyDown (b : Byte) (k : Key) : (s.setSt b).keyDown k = s.keyDown k := rfl
@[simp] theorem State.setSt_pixel (b : Byte) (px py : Nat) : (s.setSt b).pixel px py = s.pixel px py := rfl

/-! ### storeBytes -/

@[simp] theorem State.storeBytes_v (a : Nat) (bs : List Byte) : (s.storeBytes a bs).v = s.v := rfl
@[simp] theorem State.storeBytes_i (a : Nat) (bs : List Byte) : (s.storeBytes a bs).i = s.i := rfl
@[simp] theorem State.storeBytes_pc (a : Nat) (bs : List Byte) : (s.storeBytes a bs).pc = s.pc := rfl
@[simp] theorem State.storeBytes_sp (a : Nat) (bs : List Byte) : (s.storeBytes a bs).sp = s.sp := rfl
@[simp] theorem State.storeBytes_stack (a : Nat) (bs : List Byte) : (s.storeBytes a bs).stack = s.stack := rfl
@[simp] theorem State.storeBytes_dt (a : Nat) (bs : List Byte) : (s.storeBytes a bs).dt = s.dt := rfl
@[simp] theorem State.storeBytes_st (a : Nat) (bs : List Byte) : (s.storeBytes a bs).st = s.st := rfl
@[simp] theorem State.storeBytes_mem (a : Nat) (bs : List Byte) : (s.storeBytes a bs).mem = Memory.writeBytes s.mem a bs := rfl
@[simp] theorem State.storeBytes_fb (a : Nat) (bs : List Byte) : (s.storeBytes a bs).fb = s.fb := rfl
@[simp] theorem State.storeBytes_dirty (a : Nat) (bs : List Byte) : (s.storeBytes a bs).dirty = s.dirty := rfl
@[simp] theorem State.storeBytes_keys (a : Nat) (bs : List Byte) : (s.storeBytes a bs).keys = s.keys := rfl
@[simp] theorem State.storeBytes_latch (a : Nat) (bs : List Byte) : (s.storeBytes a bs).latch = s.latch := rfl
@[simp] theorem State.storeBytes_halt (a : Nat) (bs : List Byte) : (s.storeBytes a bs).halt = s.halt := rfl
@[simp] theorem State.storeBytes_cfg (a : Nat) (bs : List Byte) : (s.storeBytes a bs).cfg = s.cfg := rfl
@[simp] theorem State.storeBytes_fresh (a : Nat) (bs : List Byte) : (s.storeBytes a bs).fresh = s.fresh := rfl
@[simp] theorem State.storeBytes_reg (a : Nat) (bs : List Byte) (r : Reg) : (s.storeBytes a bs).reg r = s.reg r := rfl
@[simp] theorem State.storeBytes_keyDown (a : Nat) (bs : List Byte) (k : Key) : (s.storeBytes a bs).keyDown k = s.keyDown k := rfl
@[simp] theorem State.storeBytes_pixel (a : Nat) (bs : List Byte) (px py : Nat) : (s.storeBytes a bs).pixel px py = s.pixel px py := rfl

/-! ### useFresh -/

@[simp] theorem State.useFresh_v : s.useFresh.v = s.v := rfl
@[simp] theorem State.useFresh_i : s.useFresh.i = s.i := rfl
@[simp] theorem State.useFresh_pc : s.useFresh.pc = s.pc := rfl
@[simp] theorem State.useFresh_sp : s.useFresh.sp = s.sp := rfl
@[simp] theorem State.useFresh_stack : s.useFresh.stack = s.stack := rfl
@[simp] theorem State.useFresh_dt : s.useFresh.dt = s.dt := rfl
@[simp] theorem State.useFresh_st : s.useFresh.st = s.st := rfl
@[simp] theorem State.useFresh_mem : s.useFresh.mem = s.mem := rfl
@[simp] theorem State.useFresh_fb : s.useFresh.fb = s.fb := rfl
@[simp] theorem State.useFresh_dirty : s.useFresh.dirty = s.dirty := rfl
@[simp] theorem State.useFresh_keys : s.useFresh.keys = s.keys := rfl
@[simp] theorem State.useFresh_latch : s.useFresh.latch = s.latch := rfl
@[simp] theorem State.useFresh_halt : s.useFresh.halt = s.halt := rfl
@[simp] theorem State.useFresh_cfg : s.useFresh.cfg = s.cfg := rfl
@[simp] theorem State.useFresh_fresh : s.useFresh.fresh = s.fresh + 1 := rfl
@[simp] theorem State.useFresh_reg (r : Reg) : s.useFresh.reg r = s.reg r := rfl
@[simp] theorem State.useFresh_byteAt (a0 : Nat) : s.useFresh.byteAt a0 = s.byteAt a0 := rfl
@[simp] theorem State.useFresh_keyDown (k : Key) : s.useFresh.keyDown k = s.keyDown k := rfl
@[simp] theorem State.useFresh_pixel (px py : Nat) : s.useFresh.pixel px py = s.pixel px py := rfl

/-! ### setKey -/

@[simp] theorem State.setKey_v (j : Key) (b : Bool) : (s.setKey j b).v = s.v := rfl
@[simp] theorem State.setKey_i (j : Key) (b : Bool) : (s.setKey j b).i = s.i := rfl
@[simp] theorem State.setKey_pc (j : Key) (b : Bool) : (s.setKey j b).pc = s.pc := rfl
@[simp] theorem State.setKey_sp (j : Key) (b : Bool) : (s.setKey j b).sp = s.sp := rfl
@[simp] theorem State.setKey_stack (j : Key) (b : Bool) : (s.setKey j b).stack = s.stack := rfl
@[simp] theorem State.setKey_dt (j : Key) (b : Bool) : (s.setKey j b).dt = s.dt := rfl
@[simp] theorem State.setKey_st (j : Key) (b : Bool) : (s.setKey j b).st = s.st := rfl
@[simp] theorem State.setKey_mem (j : Key) (b : Bool) : (s.setKey j b).mem = s.mem := rfl
@[simp] theorem State.setKey_fb (j : Key) (b : Bool) : (s.setKey j b).fb = s.fb := rfl
@[simp] theorem State.setKey_dirty (j : Key) (b : Bool) : (s.setKey j b).dirty = s.dirty := rfl
@[simp] theorem State.setKey_keys (j : Key) (b : Bool) : (s.setKey j b).keys = s.keys.set j b := rfl
@[simp] theorem State.setKey_latch (j : Key) (b : Bool) : (s.setKey j b).latch = s.latch := rfl
@[simp] theorem State.setKey_halt (j : Key) (b : Bool) : (s.setKey j b).halt = s.halt := rfl
@[simp] theorem State.setKey_cfg (j : Key) (b : Bool) : (s.setKey j b).cfg = s.cfg := rfl
@[simp] theorem State.setKey_fresh (j : Key) (b : Bool) : (s.setKey j b).fresh = s.fresh := rfl
@[simp] theorem State.setKey_reg (j : Key) (b : Bool) (r : Reg) : (s.setKey j b).reg r = s.reg r := rfl
@[simp] theorem State.setKey_byteAt (j : Key) (b : Bool) (a0 : Nat) : (s.setKey j b).byteAt a0 = s.byteAt a0 := rfl
@[simp] theorem State.setKey_pixel (j : Key) (b : Bool) (px py : Nat) : (s.setKey j b).pixel px py = s.pixel px py := rfl

/-! ### setLatch -/

@[simp] theorem State.setLatch_v (l : Option Key) : (s.setLatch l).v = s.v := rfl
@[simp] theorem State.setLatch_i (l : Option Key) : (s.setLatch l).i = s.i := rfl
@[simp] theorem State.setLatch_pc (l : Option Key) : (s.setLatch l).pc = s.pc := rfl
@[simp] theorem State.setLatch_sp (l : Option Key) : (s.setLatch l).sp = s.sp := rfl
@[simp] theorem State.setLatch_stack (l : Option Key) : (s.setLatch l).stack = s.stack := rfl
@[simp] theorem State.setLatch_dt (l : Option Key) : (s.setLatch l).dt = s.dt := rfl
@[simp] theorem State.setLatch_st (l : Option Key) : (s.setLatch l).st = s.st := rfl
@[simp] theorem State.setLatch_mem (l : Option Key) : (s.setLatch l).mem = s.mem := rfl
@[simp] theorem State.setLatch_fb (l : Option Key) : (s.setLatch l).fb = s.fb := rfl
@[simp] theorem State.setLatch_dirty (l : Option Key) : (s.setLatch l).dirty = s.dirty := rfl
@[simp] theorem State.setLatch_keys (l : Option Key) : (s.setLatch l).keys = s.keys := rfl
@[simp] theorem State.setLatch_latch (l : Option Key) : (s.setLatch l).latch = l := rfl
@[simp] theorem State.setLatch_halt (l : Option Key) : (s.setLatch l).halt = s.halt := rfl
@[simp] theorem State.setLatch_cfg (l : Option Key) : (s.setLatch l).cfg = s.cfg := rfl
@[simp] theorem State.setLatch_fresh (l : Option Key) : (s.setLatch l).fresh = s.fresh := rfl
@[simp] theorem State.setLatch_reg (l : Option Key) (r : Reg) : (s.setLatch l).reg r = s.reg r := rfl
@[simp] theorem State.setLatch_byteAt (l : Option Key) (a0 : Nat) : (s.setLatch l).byteAt a0 = s.byteAt a0 := rfl
@[simp] theorem State.setLatch_keyDown (l : Option Key) (k : Key) : (s.setLatch l).keyDown k = s.keyDown k := rfl
@[simp] theorem State.setLatch_pixel (l : Option Key) (px py : Nat) : (s.setLatch l).pixel px py = s.pixel px py := rfl

/-! ### clearScreen -/

@[simp] theorem State.clearScreen_v : s.clearScreen.v = s.v := rfl
@[simp] theorem State.clearScreen_i : s.clearScreen.i = s.i := rfl
@[simp] theorem State.clearScreen_pc : s.clearScreen.pc = s.pc := rfl
@[simp] theorem State.clearScreen_sp : s.clearScreen.sp = s.sp := rfl
@[simp] theorem State.clearScreen_stack : s.clearScreen.stack = s.stack := rfl
@[simp] theorem State.clearScreen_dt : s.clearScreen.dt = s.dt := rfl
@[simp] theorem State.clearScreen_st : s.clearScreen.st = s.st := rfl
@[simp] theorem State.clearScreen_mem : s.clearScreen.mem = s.mem := rfl
@[simp] theorem State.clearScreen_fb : s.clearScreen.fb = Framebuffer.blank := rfl
@[simp] theorem State.clearScreen_dirty : s.clearScreen.dirty = true := rfl
@[simp] theorem State.clearScreen_keys : s.clearScreen.keys = s.keys := rfl
@[simp] theorem State.clearScreen_latch : s.clearScreen.latch = s.latch := rfl
@[simp] theorem State.clearScreen_halt : s.clearScreen.halt = s.halt := rfl
@[simp] theorem State.clearScreen_cfg : s.clearScreen.cfg = s.cfg := rfl
@[simp] theorem State.clearScreen_fresh : s.clearScreen.fresh = s.fresh := rfl
@[simp] theorem State.clearScreen_reg (r : Reg) : s.clearScreen.reg r = s.reg r := rfl
@[simp] theorem State.clearScreen_byteAt (a0 : Nat) : s.clearScreen.byteAt a0 = s.byteAt a0 := rfl
@[simp] theorem State.clearScreen_keyDown (k : Key) : s.clearScreen.keyDown k = s.keyDown k := rfl

/-! ### tickTimers -/

@[simp] theorem State.tickTimers_v : s.tickTimers.v = s.v := rfl
@[simp] theorem State.tickTimers_i : s.tickTimers.i = s.i := rfl
@[simp] theorem State.tickTimers_pc : s.tickTimers.pc = s.pc := rfl
@[simp] theorem State.tickTimers_sp : s.tickTimers.sp = s.sp := rfl
@[simp] theorem State.tickTimers_stack : s.tickTimers.stack = s.stack := rfl
@[simp] theorem State.tickTimers_dt : s.tickTimers.dt = countDown s.dt := rfl
@[simp] theorem State.tickTimers_st : s.tickTimers.st = countDown s.st := rfl
@[simp] theorem State.tickTimers_mem : s.tickTimers.mem = s.mem := rfl
@[simp] theorem State.tickTimers_fb : s.tickTimers.fb = s.fb := rfl
@[simp] theorem State.tickTimers_dirty : s.tickTimers.dirty = s.dirty := rfl
@[simp] theorem State.tickTimers_keys : s.tickTimers.keys = s.keys := rfl
@[simp] theorem State.tickTimers_latch : s.tickTimers.latch = s.latch := rfl
@[simp] theorem State.tickTimers_halt : s.tickTimers.halt = s.halt := rfl
@[simp] theorem State.tickTimers_cfg : s.tickTimers.cfg = s.cfg := rfl
@[simp] theorem State.tickTimers_fresh : s.tickTimers.fresh = s.fresh := rfl
@[simp] theorem State.tickTimers_reg (r : Reg) : s.tickTimers.reg r = s.reg r := rfl
@[simp] theorem State.tickTimers_byteAt (a0 : Nat) : s.tickTimers.byteAt a0 = s.byteAt a0 := rfl
@[simp] theorem State.tickTimers_keyDown (k : Key) : s.tickTimers.keyDown k = s.keyDown k := rfl
@[simp] theorem State.tickTimers_pixel (px py : Nat) : s.tickTimers.pixel px py = s.pixel px py := rfl

/-! ### skipIf -/

@[simp] theorem State.skipIf_v (c : Bool) : (s.skipIf c).v = s.v := by unfold State.skipIf; split <;> rfl
@[simp] theorem State.skipIf_i (c : Bool) : (s.skipIf c).i = s.i := by unfold State.skipIf; split <;> rfl
@[simp] theorem State.skipIf_sp (c : Bool) : (s.skipIf c).sp = s.sp := by unfold State.skipIf; split <;> rfl
@[simp] theorem State.skipIf_stack (c : Bool) : (s.skipIf c).stack = s.stack := by unfold State.skipIf; split <;> rfl
@[simp] theorem State.skipIf_dt (c : Bool) : (s.skipIf c).dt = s.dt := by unfold State.skipIf; split <;> rfl
@[simp] theorem State.skipIf_st (c : Bool) : (s.skipIf c).st = s.st := by unfold State.skipIf; split <;> rfl
@[simp] theorem State.skipIf_mem (c : Bool) : (s.skipIf c).mem = s.mem := by unfold State.skipIf; split <;> rfl
@[simp] theorem State.skipIf_fb (c : Bool) : (s.skipIf c).fb = s.fb := by unfold State.skipIf; split <;> rfl
@[simp] theorem State.skipIf_dirty (c : Bool) : (s.skipIf c).dirty = s.dirty := by unfold State.skipIf; split <;> rfl
@[simp] theorem State.skipIf_keys (c : Bool) : (s.skipIf c).keys = s.keys := by unfold State.skipIf; split <;> rfl
@[simp] theorem State.skipIf_latch (c : Bool) : (s.skipIf c).latch = s.latch := by unfold State.skipIf; split <;> rfl
@[simp] theorem State.skipIf_halt (c : Bool) : (s.skipIf c).halt = s.halt := by unfold State.skipIf; split <;> rfl
@[simp] theorem State.skipIf_cfg (c : Bool) : (s.skipIf c).cfg = s.cfg := by unfold State.skipIf; split <;> rfl
@[simp] theorem State.skipIf_fresh (c : Bool) : (s.skipIf c).fresh = s.fresh := by unfold State.skipIf; split <;> rfl
@[simp] theorem State.skipIf_reg (c : Bool) (r : Reg) : (s.skipIf c).reg r = s.reg r := by unfold State.skipIf; split <;> rfl
@[simp] theorem State.skipIf_byteAt (c : Bool) (a0 : Nat) : (s.skipIf c).byteAt a0 = s.byteAt a0 := by unfold State.skipIf; split <;> rfl
@[simp] theorem State.skipIf_keyDown (c : Bool) (k : Key) : (s.skipIf c).keyDown k = s.keyDown k := by unfold State.skipIf; split <;> rfl
@[simp] theorem State.skipIf_pixel (c : Bool) (px py : Nat) : (s.skipIf c).pixel px py = s.pixel px py := by unfold State.skipIf; split <;> rfl

/-! ### useFreshIfFlagOperand -/

@[simp] theorem State.useFreshIfFlagOperand_v (x y : Reg) : (s.useFreshIfFlagOperand x y).v = s.v := by unfold State.useFreshIfFlagOperand; split <;> rfl
@[simp] theorem State.useFreshIfFlagOperand_i (x y : Reg) : (s.useFreshIfFlagOperand x y).i = s.i := by unfold State.useFreshIfFlagOperand; split <;> rfl
@[simp] theorem State.useFreshIfFlagOperand_pc (x y : Reg) : (s.useFreshIfFlagOperand x y).pc = s.pc := by unfold State.useFreshIfFlagOperand; split <;> rfl
@[simp] theorem State.useFreshIfFlagOperand_sp (x y : Reg) : (s.useFreshIfFlagOperand x y).sp = s.sp := by unfold State.useFreshIfFlagOperand; split <;> rfl
@[simp] theorem State.useFreshIfFlagOperand_stack (x y : Reg) : (s.useFreshIfFlagOperand x y).stack = s.stack := by unfold State.useFreshIfFlagOperand; split <;> rfl
@[simp] theorem State.useFreshIfFlagOperand_dt (x y : Reg) : (s.useFreshIfFlagOperand x y).dt = s.dt := by unfold State.useFreshIfFlagOperand; split <;> rfl
@[simp] theorem State.useFreshIfFlagOperand_st (x y : Reg) : (s.useFreshIfFlagOperand x y).st = s.st := by unfold State.useFreshIfFlagOperand; split <;> rfl
@[simp] theorem State.useFreshIfFlagOperand_mem (x y : Reg) : (s.useFreshIfFlagOperand x y).mem = s.mem := by unfold State.useFreshIfFlagOperand; split <;> rfl
@[simp] theorem State.useFreshIfFlagOperand_fb (x y : Reg) : (s.useFreshIfFlagOperand x y).fb = s.fb := by unfold State.useFreshIfFlagOperand; split <;> rfl
@[simp] theorem State.useFreshIfFlagOperand_dirty (x y : Reg) : (s.useFreshIfFlagOperand x y).dirty = s.dirty := by unfold State.useFreshIfFlagOperand; split <;> rfl
@[simp] theorem State.useFreshIfFlagOperand_keys (x y : Reg) : (s.useFreshIfFlagOperand x y).keys = s.keys := by unfold State.useFreshIfFlagOperand; split <;> rfl
@[simp] theorem State.useFreshIfFlagOperand_latch (x y : Reg) : (s.useFreshIfFlagOperand x y).latch = s.latch := by unfold State.useFreshIfFlagOperand; split <;> rfl
@[simp] theorem State.useFreshIfFlagOperand_halt (x y : Reg) : (s.useFreshIfFlagOperand x y).halt = s.halt := by unfold State.useFreshIfFlagOperand; split <;> rfl
@[simp] theorem State.useFreshIfFlagOperand_cfg (x y : Reg) : (s.useFreshIfFlagOperand x y).cfg = s.cfg := by unfold State.useFreshIfFlagOperand; split <;> rfl
@[simp] theorem State.useFreshIfFlagOperand_reg (x y : Reg) (r : Reg) : (s.useFreshIfFlagOperand x y).reg r = s.reg r := by unfold State.useFreshIfFlagOperand; split <;> rfl
@[simp] theorem State.useFreshIfFlagOperand_byteAt (x y : Reg) (a0 : Nat) : (s.useFreshIfFlagOperand x y).byteAt a0 = s.byteAt a0 := by unfold State.useFreshIfFlagOperand; split <;> rfl
@[simp] theorem State.useFreshIfFlagOperand_keyDown (x y : Reg) (k : Key) : (s.useFreshIfFlagOperand x y).keyDown k = s.keyDown k := by unfold State.useFreshIfFlagOperand; split <;> rfl
@[simp] theorem State.useFreshIfFlagOperand_pixel (x y : Reg) (px py : Nat) : (s.useFreshIfFlagOperand x y).pixel px py = s.pixel px py := by unfold State.useFreshIfFlagOperand; split <;> rfl

theorem State.skipIf_pc (c : Bool) : (s.skipIf c).pc = if c then s.pc + 2 else s.pc := by unfold State.skipIf; split <;> rfl

theorem State.useFreshIfFlagOperand_fresh (x y : Reg) :
    (s.useFreshIfFlagOperand x y).fresh = if x = regF ∨ y = regF then s.fresh + 1 else s.fresh := by
  unfold State.useFreshIfFlagOperand; split <;> rfl

/-! ### Reads after writes of the accessors -/

theorem State.setReg_reg (x : Reg) (b : Byte) (r : Reg) : (s.setReg x b).reg r = if r = x then b else s.reg r := by
  by_cases h : r = x
  · subst h; simp [State.reg]
  · have h' : x.val ≠ r.val := fun e => h (Fin.ext e.symm)
    simp [State.reg, h, h']

@[simp] theorem State.setReg_reg_self (x : Reg) (b : Byte) : (s.setReg x b).reg x = b := by simp [State.setReg_reg]

@[simp] theorem State.setReg_reg_of_ne {x r : Reg} (b : Byte) (h : r ≠ x) : (s.setReg x b).reg r = s.reg r := by
  simp [State.setReg_reg, h]

theorem State.setKey_keyDown (j : Key) (b : Bool) (k : Key) :
    (s.setKey j b).keyDown k = if k = j then b else s.keyDown k := by
  by_cases h : k = j
  · subst h; simp [State.keyDown]
  · have h' : j.val ≠ k.val := fun e => h (Fin.ext e.symm)
    simp [State.keyDown, h, h']

@[simp] theorem Framebuffer.blank_pixel (px py : Nat) : Framebuffer.blank.pixel px py = false := by
  simp [Framebuffer.pixel, Framebuffer.blank]

@[simp] theorem State.clearScreen_pixel (px py : Nat) : s.clearScreen.pixel px py = false := Framebuffer.blank_pixel px py

end Sys2Proof.Machine
end

