-- ==== Sys2Proof/Laws/Ops.lean ====
section
/-! SUPPORT. What each shared operation can do, said once: the stack, the keypad, block loads, the two writes of VF. -/

namespace Sys2Proof.Machine

/-! ### The call stack (spec/10_state.md R26) -/

theorem State.push?_cases (s : State) (w : Word) :
    (s.push? w = none ∧ s.sp.val = 16) ∨
    ∃ h : s.sp.val < 16,
      s.push? w = some { s with stack := s.stack.set s.sp.val w, sp := ⟨s.sp.val + 1, by omega⟩ } := by
  unfold State.push?
  by_cases h : s.sp.val < 16
  · exact .inr ⟨h, by rw [dif_pos h]⟩
  · exact .inl ⟨by rw [dif_neg h], by have := s.sp.isLt; omega⟩

theorem State.pop?_cases (s : State) :
    (s.pop? = none ∧ s.sp.val = 0) ∨
    ∃ h : 0 < s.sp.val,
      s.pop? = some (s.stack[s.sp.val - 1]'(by have := s.sp.isLt; omega),
        { s with sp := ⟨s.sp.val - 1, by have := s.sp.isLt; omega⟩ }) := by
  unfold State.pop?
  by_cases h : 0 < s.sp.val
  · exact .inr ⟨h, by rw [dif_pos h]⟩
  · exact .inl ⟨by rw [dif_neg h], by omega⟩

/-! ### The keypad (spec/45_keypad_timers.md R265, R275) -/

theorem mem_allKeys (k : Key) : k ∈ allKeys := by revert k; decide

theorem keyOfByte_cases (b : Byte) :
    (keyOfByte b = none ∧ 15 < b.toNat) ∨ ∃ k : Key, keyOfByte b = some k ∧ b.toNat = k.val := by
  unfold keyOfByte
  by_cases h : b.toNat < 16
  · exact .inr ⟨⟨b.toNat, h⟩, by rw [dif_pos h], rfl⟩
  · exact .inl ⟨by rw [dif_neg h], by omega⟩

theorem byteOfKey_toNat (k : Key) : (byteOfKey k).toNat = k.val := by
  have := k.isLt; simp [byteOfKey]; omega

theorem lowestKeyDown_none {s : State} : s.lowestKeyDown = none ↔ ∀ k, s.keyDown k = false := by
  simp [State.lowestKeyDown, mem_allKeys]

theorem lowestKeyDown_some {s : State} {k : Key} :
    s.lowestKeyDown = some k ↔ s.keyDown k = true ∧ ∀ j, j < k → s.keyDown j = false := by
  have sorted : allKeys.Pairwise (· < ·) := by decide
  unfold State.lowestKeyDown
  rw [List.find?_eq_some_iff_append]
  constructor
  · rintro ⟨hk, as, bs, he, hall⟩
    refine ⟨hk, fun j hj => ?_⟩
    have hmem : j ∈ as ++ k :: bs := he ▸ mem_allKeys j
    rw [he] at sorted
    rcases List.mem_append.1 hmem with h | h
    · simpa using hall j h
    · rcases List.mem_cons.1 h with rfl | h
      · exact absurd hj (lt_irrefl _)
      · have := List.rel_of_pairwise_cons (List.pairwise_append.1 sorted).2.1 h
        exact absurd (lt_trans hj this) (lt_irrefl _)
  · rintro ⟨hk, hall⟩
    obtain ⟨as, bs, he⟩ := List.append_of_mem (mem_allKeys k)
    refine ⟨hk, as, bs, he, fun j hj => ?_⟩
    rw [he] at sorted
    have := (List.pairwise_append.1 sorted).2.2 j hj k (by simp)
    simp [hall j this]

/-! ### Block loads (spec/43_index_memory.md R206) -/

/-- A block load changes V alone: V[0]..V[k-1] become the bytes at base. -/
theorem State.loadRegs_spec (s : State) (base : Nat) : ∀ k : Nat,
    { s.loadRegs base k with v := s.v } = s ∧
    ∀ r : Reg, (s.loadRegs base k).reg r = if r.val < k then s.byteAt (base + r.val) else s.reg r
  | 0 => ⟨rfl, fun _ => by simp [State.loadRegs]⟩
  | k + 1 => by
    obtain ⟨h1, h2⟩ := State.loadRegs_spec s base k
    unfold State.loadRegs
    by_cases hk : k < 16
    · simp only [dif_pos hk]
      refine ⟨Eq.trans rfl h1, fun r => ?_⟩
      rw [State.setReg_reg, h2]
      by_cases hr : r = ⟨k, hk⟩
      · subst hr; simp
      · have hr' : r.val ≠ k := fun e => hr (Fin.ext e)
        rw [if_neg hr]
        by_cases hlt : r.val < k
        · rw [if_pos hlt, if_pos (by omega)]
        · rw [if_neg hlt, if_neg (by omega)]
    · simp only [dif_neg hk]
      refine ⟨h1, fun r => ?_⟩
      have := r.isLt
      rw [h2, if_pos (by omega), if_pos (by omega)]

/-- What `Fx55` stores: V[0]..V[x], in order. -/
theorem State.regsUpTo_length (s : State) (x : Reg) : (s.regsUpTo x).length = x.val + 1 := by
  have := x.isLt; simp [State.regsUpTo]

theorem State.regsUpTo_getElem (s : State) (x k : Reg) (h : k.val < (s.regsUpTo x).length) :
    (s.regsUpTo x)[k.val] = s.reg k := by
  simp [State.regsUpTo, State.reg]

/-! ### The two writes of VF (spec/42_alu.md R164, R165) -/

/-- Everything `8xy4`, `8xy5` and `8xy7` can write: V[x] and VF for x ≠ F; VF alone, one of two values, for x = F. -/
theorem State.writeResultFlag_cases (s : State) (x : Reg) (result flag : Byte) :
    (x ≠ regF ∧ s.writeResultFlag x result flag = (s.setReg x result).setReg regF flag) ∨
    (x = regF ∧ ∃ b, (b = flag ∨ b = result) ∧ s.writeResultFlag x result flag = (s.setReg regF b).useFresh) := by
  unfold State.writeResultFlag
  by_cases h : x = regF
  · refine .inr ⟨h, _, ?_, if_pos h⟩
    split
    · exact .inr rfl
    · exact .inl rfl
  · exact .inl ⟨h, if_neg h⟩

/-- Everything `8xy6` and `8xyE` can write: V[x] and VF for x ≠ F; VF alone, one of three values, for x = F. -/
theorem State.writeShiftFlag_cases (s : State) (x : Reg) (shift : Byte → Byte) (operand flag : Byte) :
    (x ≠ regF ∧ s.writeShiftFlag x shift operand flag = (s.setReg x (shift operand)).setReg regF flag) ∨
    (x = regF ∧ ∃ b, (b = shift flag ∨ b = shift operand ∨ b = flag) ∧
      s.writeShiftFlag x shift operand flag = (s.setReg regF b).useFresh) := by
  unfold State.writeShiftFlag
  by_cases h : x = regF
  · refine .inr ⟨h, _, ?_, if_pos h⟩
    split
    · exact .inl rfl
    · exact .inr (.inl rfl)
    · exact .inr (.inr rfl)
  · exact .inl ⟨h, if_neg h⟩

/-! ### Results as numbers (spec/42_alu.md R151) -/

theorem flagByte_toNat (b : Bool) : (flagByte b).toNat = if b then 1 else 0 := by cases b <;> rfl
theorem addBytes_toNat (p q : Byte) : (addBytes p q).toNat = (p.toNat + q.toNat) % 256 := by simp [addBytes]
theorem subBytes_toNat (p q : Byte) : (subBytes p q).toNat = (p.toNat + 256 - q.toNat) % 256 := by simp [subBytes]
theorem shiftRight_toNat (v : Byte) : (shiftRight v).toNat = v.toNat / 2 := by
  have := v.isLt; simp [shiftRight]; omega
theorem shiftLeft_toNat (v : Byte) : (shiftLeft v).toNat = 2 * v.toNat % 256 := by simp [shiftLeft]
theorem lowBit_flag (v : Byte) : (flagByte (lowBit v)).toNat = v.toNat % 2 := by
  rw [flagByte_toNat, lowBit]
  simp only [BitVec.getLsbD, Nat.testBit_zero]
  rcases Nat.mod_two_eq_zero_or_one v.toNat with h | h <;> simp [h]
theorem highBit_flag (v : Byte) : (flagByte (highBit v)).toNat = v.toNat / 128 := by
  have hv := v.isLt
  rw [flagByte_toNat, highBit]
  have h : v.toNat / 128 = 0 ∨ v.toNat / 128 = 1 := by omega
  simp only [BitVec.getLsbD, Nat.testBit_eq_decide_div_mod_eq]
  rcases h with h | h <;> simp [h]
theorem byteToWord_toNat (b : Byte) : (byteToWord b).toNat = b.toNat := by
  have := b.isLt; simp [byteToWord]; omega
theorem zext16_toNat (nnn : BitVec 12) : (zext16 nnn).toNat = nnn.toNat := by
  have := nnn.isLt; simp [zext16]; omega

end Sys2Proof.Machine
end

