-- ==== Sys2Proof/Laws/Draw.lean ====
section
/-! SUPPORT. What toggling a set of pixels does, and that drawing a sprite toggles the set of its bits inside the grid,
each once (spec/44_display.md R241, R250–R254). -/

namespace Sys2Proof.Machine

theorem State.toggle_outside (s : State) {px py : Nat} (h : ¬(px < 64 ∧ py < 32)) : s.toggle px py = (false, s) := by
  unfold State.toggle; rw [dif_neg h]

theorem State.toggle_fst (s : State) (px py : Nat) : (s.toggle px py).1 = s.pixel px py := by
  unfold State.toggle State.pixel Framebuffer.pixel; split <;> rfl

theorem State.toggle_dirty (s : State) {px py : Nat} (h : px < 64 ∧ py < 32) : (s.toggle px py).2.dirty = true := by
  unfold State.toggle; rw [dif_pos h]

/-- A toggle changes FB and DIRTY alone. -/
theorem State.toggle_frame (s : State) (px py : Nat) :
    { (s.toggle px py).2 with fb := s.fb, dirty := s.dirty } = s := by
  unfold State.toggle; split <;> rfl

theorem State.toggle_pixel (s : State) {px py : Nat} (h : px < 64 ∧ py < 32) (qx qy : Nat) :
    (s.toggle px py).2.pixel qx qy = (s.pixel qx qy ^^ decide (qx = px ∧ qy = py)) := by
  unfold State.toggle
  rw [dif_pos h]
  simp only [State.pixel, Framebuffer.pixel]
  by_cases hq : qx < 64 ∧ qy < 32
  · simp only [dif_pos hq, Vector.getElem_set]
    by_cases hx : px = qx
    · subst hx
      by_cases hy : py = qy
      · subst hy; simp
      · have hy' : ¬qy = py := fun e => hy e.symm
        simp [hy, hy']
    · have hx' : ¬qx = px := fun e => hx e.symm
      simp [hx, hx']
  · have : ¬(qx = px ∧ qy = py) := by omega
    simp [hq, this]

/-- Going from s to r, exactly the pixels of bits inside the grid were toggled, each once; r's second part is hit or
whether one of them was on before; DIRTY is set if there was one; and nothing else changed. -/
structure Drawn (bits : Nat → Nat → Bool) (s : State) (hit : Bool) (r : State × Bool) : Prop where
  frame : { r.1 with fb := s.fb, dirty := s.dirty } = s
  pixel : ∀ qx qy, qx < 64 → qy < 32 → r.1.pixel qx qy = (s.pixel qx qy ^^ bits qx qy)
  hit : r.2 = true ↔ hit = true ∨ ∃ qx qy, qx < 64 ∧ qy < 32 ∧ s.pixel qx qy = true ∧ bits qx qy = true
  dirty : r.1.dirty = true ↔ s.dirty = true ∨ ∃ qx qy, qx < 64 ∧ qy < 32 ∧ bits qx qy = true

/-- Only the bits inside the grid matter. -/
theorem Drawn.congr {b b' : Nat → Nat → Bool} {s : State} {hit : Bool} {r : State × Bool} (h : Drawn b s hit r)
    (e : ∀ qx qy, qx < 64 → qy < 32 → b qx qy = b' qx qy) : Drawn b' s hit r where
  frame := h.frame
  pixel qx qy hx hy := by rw [h.pixel qx qy hx hy, e qx qy hx hy]
  hit := h.hit.trans <| or_congr_right <| exists_congr fun qx => exists_congr fun qy =>
    and_congr_right fun hx => and_congr_right fun hy => by rw [e qx qy hx hy]
  dirty := h.dirty.trans <| or_congr_right <| exists_congr fun qx => exists_congr fun qy =>
    and_congr_right fun hx => and_congr_right fun hy => by rw [e qx qy hx hy]

theorem Drawn.nothing (s : State) (hit : Bool) : Drawn (fun _ _ => false) s hit (s, hit) where
  frame := rfl
  pixel _ _ _ _ := by simp
  hit := by simp
  dirty := by simp

theorem Drawn.toggled (s : State) (hit : Bool) {px py : Nat} (h : px < 64 ∧ py < 32) :
    Drawn (fun qx qy => decide (qx = px ∧ qy = py)) s hit ((s.toggle px py).2, hit || (s.toggle px py).1) where
  frame := s.toggle_frame px py
  pixel qx qy _ _ := s.toggle_pixel h qx qy
  hit := by
    rw [State.toggle_fst, Bool.or_eq_true]
    refine or_congr_right ⟨fun e => ⟨px, py, h.1, h.2, e, by simp⟩, ?_⟩
    rintro ⟨qx, qy, _, _, e, d⟩
    have := of_decide_eq_true d
    rwa [this.1, this.2] at e
  dirty := by
    rw [s.toggle_dirty h]
    exact ⟨fun _ => .inr ⟨px, py, h.1, h.2, by simp⟩, fun _ => rfl⟩

/-- Two drawings of disjoint sets, one after the other. -/
theorem Drawn.comp {b c : Nat → Nat → Bool} {s : State} {hit : Bool} {r q : State × Bool} (h : Drawn b s hit r)
    (k : Drawn c r.1 r.2 q) (disjoint : ∀ qx qy, b qx qy = true → c qx qy = true → False) :
    Drawn (fun qx qy => b qx qy || c qx qy) s hit q where
  frame := by
    have e : { q.1 with fb := s.fb, dirty := s.dirty } =
        { ({ q.1 with fb := r.1.fb, dirty := r.1.dirty } : State) with fb := s.fb, dirty := s.dirty } := rfl
    rw [e, k.frame, h.frame]
  pixel qx qy hx hy := by
    rw [k.pixel qx qy hx hy, h.pixel qx qy hx hy]
    have := disjoint qx qy
    cases hb : b qx qy <;> cases hc : c qx qy <;> simp_all
  hit := by
    rw [k.hit, h.hit, or_assoc]
    refine or_congr_right ⟨?_, ?_⟩
    · rintro (⟨qx, qy, hx, hy, e, d⟩ | ⟨qx, qy, hx, hy, e, d⟩)
      · exact ⟨qx, qy, hx, hy, e, by simp [d]⟩
      · refine ⟨qx, qy, hx, hy, ?_, by simp [d]⟩
        rw [h.pixel qx qy hx hy] at e
        have := disjoint qx qy
        cases hb : b qx qy <;> simp_all
    · rintro ⟨qx, qy, hx, hy, e, d⟩
      by_cases hb : b qx qy = true
      · exact .inl ⟨qx, qy, hx, hy, e, hb⟩
      · refine .inr ⟨qx, qy, hx, hy, ?_, ?_⟩
        · rw [h.pixel qx qy hx hy]; simp_all
        · simp_all
  dirty := by
    rw [k.dirty, h.dirty, or_assoc]
    refine or_congr_right ⟨?_, ?_⟩
    · rintro (⟨qx, qy, hx, hy, d⟩ | ⟨qx, qy, hx, hy, d⟩) <;> exact ⟨qx, qy, hx, hy, by simp [d]⟩
    · rintro ⟨qx, qy, hx, hy, d⟩
      by_cases hb : b qx qy = true
      · exact .inl ⟨qx, qy, hx, hy, hb⟩
      · exact .inr ⟨qx, qy, hx, hy, by simp_all⟩

/-- The bits of a sprite byte b at row py from column x0, of its columns k to k + m - 1. -/
def rowBits (x0 py : Nat) (b : Byte) (k m qx qy : Nat) : Bool :=
  decide (qy = py ∧ x0 + k ≤ qx ∧ qx < x0 + k + m) && b.getLsbD (7 - (qx - x0))

/-- Drawing the columns k to k + m - 1 of a row inside the grid toggles their bits. -/
theorem drawRow_drawn (x0 py : Nat) (b : Byte) (hpy : py < 32) : ∀ (m k : Nat) (s : State) (hit : Bool),
    Drawn (rowBits x0 py b k m) s hit (drawRow x0 py b (List.range' k m) (s, hit))
  | 0, k, s, hit => (Drawn.nothing s hit).congr fun qx qy _ _ => by
      simp only [rowBits]
      simp
  | m + 1, k, s, hit => by
    rw [List.range'_succ]
    unfold drawRow
    by_cases h64 : 64 ≤ x0 + k
    · rw [if_pos h64]
      refine (Drawn.nothing s hit).congr fun qx qy hx _ => ?_
      have : ¬(qy = py ∧ x0 + k ≤ qx ∧ qx < x0 + k + (m + 1)) := by omega
      simp [rowBits, this]
    · rw [if_neg h64]
      by_cases hb : b.getLsbD (7 - k) = true
      · rw [if_pos hb]
        have rest := drawRow_drawn x0 py b hpy m (k + 1) (s.toggle (x0 + k) py).2 (hit || (s.toggle (x0 + k) py).1)
        refine ((Drawn.toggled s hit (px := x0 + k) (py := py) ⟨by omega, hpy⟩).comp rest ?_).congr ?_
        · intro qx qy h1 h2
          simp only [rowBits, Bool.and_eq_true, decide_eq_true_eq] at h1 h2
          omega
        · intro qx qy _ _
          by_cases hq : qx = x0 + k ∧ qy = py
          · have e : 7 - (qx - x0) = 7 - k := by omega
            have r : qy = py ∧ x0 + k ≤ qx ∧ qx < x0 + k + (m + 1) := by omega
            rw [rowBits, rowBits, e, hb]; simp [hq]
          · have r : (qy = py ∧ x0 + k ≤ qx ∧ qx < x0 + k + (m + 1)) ↔
                (qy = py ∧ x0 + (k + 1) ≤ qx ∧ qx < x0 + (k + 1) + m) := by omega
            simp only [rowBits, r, hq, decide_false, Bool.false_or]
      · rw [if_neg hb]
        refine (drawRow_drawn x0 py b hpy m (k + 1) s hit).congr fun qx qy _ _ => ?_
        by_cases hq : qx = x0 + k ∧ qy = py
        · have e : 7 - (qx - x0) = 7 - k := by omega
          have hb' : b.getLsbD (7 - k) = false := by simpa using hb
          rw [rowBits, rowBits, e, hb']; simp
        · have r : (qy = py ∧ x0 + k ≤ qx ∧ qx < x0 + k + (m + 1)) ↔
              (qy = py ∧ x0 + (k + 1) ≤ qx ∧ qx < x0 + (k + 1) + m) := by omega
          simp only [rowBits, r]

/-- The bits of the sprite at base from column x0 and row y0, of its rows k to k + m - 1. -/
def spriteBits (byte : Nat → Byte) (x0 y0 base k m qx qy : Nat) : Bool :=
  decide (y0 + k ≤ qy ∧ qy < y0 + k + m ∧ x0 ≤ qx ∧ qx < x0 + 8) && (byte (base + (qy - y0))).getLsbD (7 - (qx - x0))

theorem byteAt_of_frame {s t : State} (h : { t with fb := s.fb, dirty := s.dirty } = s) (a : Nat) :
    t.byteAt a = s.byteAt a := by
  have : t.mem = s.mem := (congrArg State.mem h : _)
  rw [State.byteAt, State.byteAt, this]

/-- Drawing the rows k to k + m - 1 of a sprite toggles their bits inside the grid. -/
theorem drawRows_drawn (x0 y0 base : Nat) : ∀ (m k : Nat) (s : State) (hit : Bool),
    Drawn (spriteBits s.byteAt x0 y0 base k m) s hit (drawRows x0 y0 base (List.range' k m) (s, hit))
  | 0, k, s, hit => (Drawn.nothing s hit).congr fun qx qy _ _ => by
      have : ¬(y0 + k ≤ qy ∧ qy < y0 + k + 0 ∧ x0 ≤ qx ∧ qx < x0 + 8) := by omega
      simp only [spriteBits, this, decide_false, Bool.false_and]
  | m + 1, k, s, hit => by
    rw [List.range'_succ]
    unfold drawRows
    by_cases h32 : 32 ≤ y0 + k
    · rw [if_pos h32]
      refine (Drawn.nothing s hit).congr fun qx qy _ hy => ?_
      have : ¬(y0 + k ≤ qy ∧ qy < y0 + k + (m + 1) ∧ x0 ≤ qx ∧ qx < x0 + 8) := by omega
      simp only [spriteBits, this, decide_false, Bool.false_and]
    · rw [if_neg h32]
      have row : Drawn (rowBits x0 (y0 + k) (s.byteAt (base + k)) 0 8) s hit
          (drawRow x0 (y0 + k) (s.byteAt (base + k)) [0, 1, 2, 3, 4, 5, 6, 7] (s, hit)) :=
        drawRow_drawn x0 (y0 + k) (s.byteAt (base + k)) (by omega) 8 0 s hit
      revert row
      generalize drawRow x0 (y0 + k) (s.byteAt (base + k)) [0, 1, 2, 3, 4, 5, 6, 7] (s, hit) = r
      intro row
      have rest := drawRows_drawn x0 y0 base m (k + 1) r.1 r.2
      have same : r.1.byteAt = s.byteAt := funext (byteAt_of_frame row.frame)
      rw [same] at rest
      refine (row.comp rest ?_).congr ?_
      · intro qx qy h1 h2
        simp only [rowBits, spriteBits, Bool.and_eq_true, decide_eq_true_eq] at h1 h2
        omega
      · intro qx qy _ _
        by_cases hq : qy = y0 + k
        · have e : qy - y0 = k := by omega
          have r1 : (qy = y0 + k ∧ x0 + 0 ≤ qx ∧ qx < x0 + 0 + 8) ↔
              (y0 + k ≤ qy ∧ qy < y0 + k + (m + 1) ∧ x0 ≤ qx ∧ qx < x0 + 8) := by omega
          have r2 : ¬(y0 + (k + 1) ≤ qy ∧ qy < y0 + (k + 1) + m ∧ x0 ≤ qx ∧ qx < x0 + 8) := by omega
          simp only [rowBits, spriteBits, r1, r2, e, decide_false, Bool.false_and, Bool.or_false]
        · have r1 : ¬(qy = y0 + k ∧ x0 + 0 ≤ qx ∧ qx < x0 + 0 + 8) := by omega
          have r2 : (y0 + (k + 1) ≤ qy ∧ qy < y0 + (k + 1) + m ∧ x0 ≤ qx ∧ qx < x0 + 8) ↔
              (y0 + k ≤ qy ∧ qy < y0 + k + (m + 1) ∧ x0 ≤ qx ∧ qx < x0 + 8) := by omega
          simp only [rowBits, spriteBits, r1, r2, decide_false, Bool.false_and, Bool.false_or]

end Sys2Proof.Machine
end

