-- ==== Sys2Proof/Laws/PerInstr.lean ====
section
/-! SUPPORT. Statements made for every instruction, one lemma per constructor. The family MatchesRow says that an
instruction's encoding belongs to its row of the opcode table (spec/30_encoding.md R93). -/

namespace Sys2Proof

/-! ### What the table's masks keep of a word -/

theorem append_and_append {m n : Nat} (a c : BitVec m) (b d : BitVec n) :
    (a ++ b) &&& (c ++ d) = (a &&& c) ++ (b &&& d) := by
  apply BitVec.eq_of_getLsbD_eq
  intro i _
  simp only [BitVec.getLsbD_and, BitVec.getLsbD_append]
  split <;> rfl

theorem wordNNN_and (a c : BitVec 4) (b d : BitVec 12) :
    wordNNN a b &&& wordNNN c d = wordNNN (a &&& c) (b &&& d) := append_and_append a c b d

theorem wordXNN_and (a c : BitVec 4) (x z : Reg) (b d : Byte) :
    wordXNN a x b &&& wordXNN c z d =
      (a &&& c) ++ (BitVec.ofFin (w := 4) x &&& BitVec.ofFin (w := 4) z) ++ (b &&& d) := by
  unfold wordXNN
  exact (append_and_append _ _ b d).trans (congrArg (· ++ (b &&& d)) (append_and_append a c _ _))

theorem and_ones4 (a : BitVec 4) : a &&& 15#4 = a := BitVec.and_allOnes
theorem and_ones8 (a : BitVec 8) : a &&& 255#8 = a := BitVec.and_allOnes

/-- The mask F000 keeps the opcode class. -/
theorem and_mask_class (w : Word) : w &&& 0xF000#16 = wordNNN (fieldOp w) 0#12 := by
  have h : wordNNN (fieldOp w) (fieldNNN w) &&& wordNNN 15#4 0#12 = wordNNN (fieldOp w) 0#12 := by
    rw [wordNNN_and, and_ones4, BitVec.and_zero]
  rwa [wordNNN_fields] at h

/-- The mask F0FF keeps the opcode class and the low byte. -/
theorem and_mask_byte (w : Word) : w &&& 0xF0FF#16 = wordXNN (fieldOp w) 0 (fieldNN w) := by
  have h : wordXNN (fieldOp w) (fieldX w) (fieldNN w) &&& wordXNN 15#4 0 255#8 = wordXNN (fieldOp w) 0 (fieldNN w) := by
    rw [wordXNN_and, and_ones4, and_ones8]
    exact congrArg (fun b : BitVec 4 => fieldOp w ++ b ++ fieldNN w) (BitVec.and_zero (x := BitVec.ofFin (w := 4) (fieldX w)))
  rwa [wordXNN_fields] at h

/-- The mask F00F keeps the opcode class and the low nibble. -/
theorem and_mask_nibble (w : Word) : w &&& 0xF00F#16 = wordXYN (fieldOp w) 0 0 (fieldN w) := by
  have h : wordXYN (fieldOp w) 0 0 (fieldN w) = wordXNN (fieldOp w) 0 ((0#4 : BitVec 4) ++ fieldN w) := by
    apply BitVec.eq_of_toNat_eq
    rw [wordXYN_toNat, wordXNN_toNat, toNat_append_eq]
    simp
  have low : fieldNN w &&& 0x0F#8 = (0#4 : BitVec 4) ++ fieldN w := by
    have f : fieldNN w = (BitVec.ofFin (w := 4) (fieldY w)) ++ fieldN w := by
      apply BitVec.eq_of_toNat_eq
      rw [fieldNN_toNat, toNat_append_eq, fieldN_toNat]
      have : (BitVec.ofFin (w := 4) (fieldY w)).toNat = (fieldY w).val := rfl
      rw [this, fieldY_val]; omega
    have k : ((BitVec.ofFin (w := 4) (fieldY w)) ++ fieldN w) &&& (0#4 ++ 15#4) = (0#4 : BitVec 4) ++ fieldN w := by
      rw [append_and_append, and_ones4, BitVec.and_zero]
    rw [f]; exact k
  have g : wordXNN (fieldOp w) (fieldX w) (fieldNN w) &&& wordXNN 15#4 0 0x0F#8 = wordXYN (fieldOp w) 0 0 (fieldN w) := by
    rw [wordXNN_and, and_ones4, low, h]
    exact congrArg (fun b : BitVec 4 => fieldOp w ++ b ++ ((0#4 : BitVec 4) ++ fieldN w))
      (BitVec.and_zero (x := BitVec.ofFin (w := 4) (fieldX w)))
  rwa [wordXNN_fields] at g

/-! ### The family -/

namespace Laws.MatchesRow

/-- The instruction's encoding belongs to its row. -/
def Statement (i : Instr) : Prop := (rowOf i).matches (encode i) = true

theorem of_class {i : Instr} {op : BitVec 4} (hm : (rowOf i).mask = 0xF000#16) (he : fieldOp (encode i) = op)
    (hp : (rowOf i).pat = wordNNN op 0#12) : Statement i := by
  simp [Statement, OpcodeRow.matches, hm, hp, and_mask_class, he]

theorem of_nibble {i : Instr} {op n : BitVec 4} (hm : (rowOf i).mask = 0xF00F#16) (he : fieldOp (encode i) = op)
    (hn : fieldN (encode i) = n) (hp : (rowOf i).pat = wordXYN op 0 0 n) : Statement i := by
  simp [Statement, OpcodeRow.matches, hm, hp, and_mask_nibble, he, hn]

theorem of_byte {i : Instr} {op : BitVec 4} {nn : Byte} (hm : (rowOf i).mask = 0xF0FF#16) (he : fieldOp (encode i) = op)
    (hn : fieldNN (encode i) = nn) (hp : (rowOf i).pat = wordXNN op 0 nn) : Statement i := by
  simp [Statement, OpcodeRow.matches, hm, hp, and_mask_byte, he, hn]

theorem cls : Statement .cls := by unfold Statement; decide
theorem ret : Statement .ret := by unfold Statement; decide
theorem jp (nnn : BitVec 12) : Statement (.jp nnn) := of_class rfl (fieldOp_wordNNN ..) rfl
theorem call (nnn : BitVec 12) : Statement (.call nnn) := of_class rfl (fieldOp_wordNNN ..) rfl
theorem seImm (x : Reg) (nn : Byte) : Statement (.seImm x nn) := of_class rfl (fieldOp_wordXNN ..) rfl
theorem sneImm (x : Reg) (nn : Byte) : Statement (.sneImm x nn) := of_class rfl (fieldOp_wordXNN ..) rfl
theorem seReg (x y : Reg) : Statement (.seReg x y) := of_nibble rfl (fieldOp_wordXYN ..) (fieldN_wordXYN ..) rfl
theorem ldImm (x : Reg) (nn : Byte) : Statement (.ldImm x nn) := of_class rfl (fieldOp_wordXNN ..) rfl
theorem addImm (x : Reg) (nn : Byte) : Statement (.addImm x nn) := of_class rfl (fieldOp_wordXNN ..) rfl
theorem ldReg (x y : Reg) : Statement (.ldReg x y) := of_nibble rfl (fieldOp_wordXYN ..) (fieldN_wordXYN ..) rfl
theorem orReg (x y : Reg) : Statement (.orReg x y) := of_nibble rfl (fieldOp_wordXYN ..) (fieldN_wordXYN ..) rfl
theorem andReg (x y : Reg) : Statement (.andReg x y) := of_nibble rfl (fieldOp_wordXYN ..) (fieldN_wordXYN ..) rfl
theorem xorReg (x y : Reg) : Statement (.xorReg x y) := of_nibble rfl (fieldOp_wordXYN ..) (fieldN_wordXYN ..) rfl
theorem addReg (x y : Reg) : Statement (.addReg x y) := of_nibble rfl (fieldOp_wordXYN ..) (fieldN_wordXYN ..) rfl
theorem subReg (x y : Reg) : Statement (.subReg x y) := of_nibble rfl (fieldOp_wordXYN ..) (fieldN_wordXYN ..) rfl
theorem shrReg (x y : Reg) : Statement (.shrReg x y) := of_nibble rfl (fieldOp_wordXYN ..) (fieldN_wordXYN ..) rfl
theorem subnReg (x y : Reg) : Statement (.subnReg x y) := of_nibble rfl (fieldOp_wordXYN ..) (fieldN_wordXYN ..) rfl
theorem shlReg (x y : Reg) : Statement (.shlReg x y) := of_nibble rfl (fieldOp_wordXYN ..) (fieldN_wordXYN ..) rfl
theorem sneReg (x y : Reg) : Statement (.sneReg x y) := of_nibble rfl (fieldOp_wordXYN ..) (fieldN_wordXYN ..) rfl
theorem ldI (nnn : BitVec 12) : Statement (.ldI nnn) := of_class rfl (fieldOp_wordNNN ..) rfl
theorem jpV0 (nnn : BitVec 12) (x : Reg) : Statement (.jpV0 nnn x) := of_class rfl (fieldOp_wordNNN ..) rfl
theorem rnd (x : Reg) (nn : Byte) : Statement (.rnd x nn) := of_class rfl (fieldOp_wordXNN ..) rfl
theorem drw (x y : Reg) (n : BitVec 4) : Statement (.drw x y n) := of_class rfl (fieldOp_wordXYN ..) rfl
theorem skp (x : Reg) : Statement (.skp x) := of_byte rfl (fieldOp_wordXNN ..) (fieldNN_wordXNN ..) rfl
theorem sknp (x : Reg) : Statement (.sknp x) := of_byte rfl (fieldOp_wordXNN ..) (fieldNN_wordXNN ..) rfl
theorem ldVxDt (x : Reg) : Statement (.ldVxDt x) := of_byte rfl (fieldOp_wordXNN ..) (fieldNN_wordXNN ..) rfl
theorem ldVxK (x : Reg) : Statement (.ldVxK x) := of_byte rfl (fieldOp_wordXNN ..) (fieldNN_wordXNN ..) rfl
theorem ldDtVx (x : Reg) : Statement (.ldDtVx x) := of_byte rfl (fieldOp_wordXNN ..) (fieldNN_wordXNN ..) rfl
theorem ldStVx (x : Reg) : Statement (.ldStVx x) := of_byte rfl (fieldOp_wordXNN ..) (fieldNN_wordXNN ..) rfl
theorem addI (x : Reg) : Statement (.addI x) := of_byte rfl (fieldOp_wordXNN ..) (fieldNN_wordXNN ..) rfl
theorem ldF (x : Reg) : Statement (.ldF x) := of_byte rfl (fieldOp_wordXNN ..) (fieldNN_wordXNN ..) rfl
theorem ldB (x : Reg) : Statement (.ldB x) := of_byte rfl (fieldOp_wordXNN ..) (fieldNN_wordXNN ..) rfl
theorem ldMemVx (x : Reg) : Statement (.ldMemVx x) := of_byte rfl (fieldOp_wordXNN ..) (fieldNN_wordXNN ..) rfl
theorem ldVxMem (x : Reg) : Statement (.ldVxMem x) := of_byte rfl (fieldOp_wordXNN ..) (fieldNN_wordXNN ..) rfl

end Laws.MatchesRow

end Sys2Proof
end

