-- ==== Sys2Proof/Laws/Step.lean ====
section
/-! SUPPORT. What one step can do, said once. -/

namespace Sys2Proof.Machine

/-- The fetch bound as one condition (spec/30_encoding.md R104). -/
theorem fetchFault_cases (a : Nat) :
    (fetchFault a = none ∧ a + 1 ≤ 0xFFF) ∨ (fetchFault a = some (max a 0x1000) ∧ 0xFFF < a + 1) := by
  unfold fetchFault
  by_cases h : 0xFFF < a + 1
  · refine .inr ⟨?_, h⟩
    rw [if_pos h]
    split
    · rw [Nat.max_eq_left (by omega)]
    · rw [Nat.max_eq_right (by omega)]; congr 1; omega
  · exact .inl ⟨if_neg h, by omega⟩

/-- Everything a fetch can answer: the big-endian word of two bytes inside memory, or the lowest address outside. -/
theorem State.fetch_cases (s : State) :
    (s.fetch = .ok (wordOfBytes (s.byteAt s.pc.toNat) (s.byteAt (s.pc.toNat + 1))) ∧ s.pc.toNat + 1 ≤ 0xFFF) ∨
    (s.fetch = .error (max s.pc.toNat 0x1000) ∧ 0xFFF < s.pc.toNat + 1) := by
  unfold State.fetch
  rcases fetchFault_cases s.pc.toNat with ⟨e, h⟩ | ⟨e, h⟩
  · exact .inl ⟨by rw [e], h⟩
  · exact .inr ⟨by rw [e], h⟩

/-- Everything a step can do: nothing on a halted core; else raise FetchOutOfBounds, raise InvalidOpcode, or run the
instruction its word decodes to (spec/30_encoding.md R103). -/
theorem step_cases (s : State) :
    (s.halt ≠ none ∧ step s = .next s) ∨
    (s.halt = none ∧ 0xFFF < s.pc.toNat + 1 ∧
      step s = raise .fetchOutOfBounds none (some (max s.pc.toNat 0x1000)) s) ∨
    (s.halt = none ∧ s.pc.toNat + 1 ≤ 0xFFF ∧ ∃ w, s.fetch = .ok w ∧
      ((∃ e, decode w = .error e) ∧ step s = raise .invalidOpcode (some w) none s ∨
        ∃ i, decode w = .ok i ∧ step s = exec i s)) := by
  unfold step cycle
  cases hh : s.halt with
  | some r => exact .inl ⟨by simp, by simp⟩
  | none =>
    refine .inr ?_
    rcases s.fetch_cases with ⟨e, h⟩ | ⟨e, h⟩
    · refine .inr ⟨rfl, h, _, e, ?_⟩
      simp only [e, runWord, Option.isSome_none, Bool.false_eq_true, if_false]
      cases hd : decode (wordOfBytes (s.byteAt s.pc.toNat) (s.byteAt (s.pc.toNat + 1))) with
      | error d => exact .inl ⟨⟨d, rfl⟩, rfl⟩
      | ok i => exact .inr ⟨i, rfl, rfl⟩
    · exact .inl ⟨rfl, h, by simp [e]⟩

/-- One step of a run of several, on any machine behind the host's interface. -/
theorem core_run_succ (M : Host.Core) (k : Nat) {s t : M.State} (h : M.step s = .next t) :
    M.run (k + 1) s = M.run k t := by
  rw [Host.Core.run, h]

end Sys2Proof.Machine
end

