-- ==== Sys2Proof/Tests/Slice0.lean ====
section
/-! SUPPORT. Tests: the well-formedness smoke test, a word for every constructor, one-step vectors of
spec/95_test_vectors.md (the vector is named in each docstring), and for every obligation with hypotheses a state and
operands that meet them. -/

namespace Sys2Proof.Tests

open Sys2Proof Sys2Proof.Machine

/-! ### Helpers -/

/-- The next state of an outcome; the reset state where there is none. -/
def after : Result → State
  | .next t => t
  | .fault _ | .refused _ => State.reset

/-- The state after one step that runs the word w. -/
def run (w : Nat) (s : State) : State := after (step (s.withFetchWord 16 w))

/-- The reset state with V[x] = a and V[y] = b. -/
def regs (x : Reg) (a : Byte) (y : Reg) (b : Byte) : State := (State.reset.setReg x a).setReg y b

/-- A state with SP = n. -/
def withSp (n : Fin 17) (s : State) : State := { s with sp := n }

/-- A state with a configuration. -/
def withCfg (f : Cfg → Cfg) (s : State) : State := { s with cfg := f s.cfg }

/-- A fault record some state halted with. -/
def someRecord : FaultRecord := ⟨.invalidOpcode, 0x200, some 0x0000, none⟩

/-- A halted core. -/
def halted : State := { State.reset with halt := some someRecord }

/-! ### Well-formedness: the one check refuses an ill-formed term -/

/-- B345 names the register nnn[11:8] = 3 (spec/41_control_flow.md R140). -/
theorem test_illFormed_jpV0_refused : (Instr.jpV0 0x345 4).wellFormed = false := by decide

theorem test_wellFormed_jpV0_accepted : (Instr.jpV0 0x345 3).wellFormed = true := by decide

/-! ### Decoding: a word for every constructor, written out from the pattern column of spec/30_encoding.md R93 -/

theorem test_decode_cls : decode 0b0000_0000_1110_0000#16 = .ok (.cls) := by decide
theorem test_decode_ret : decode 0b0000_0000_1110_1110#16 = .ok (.ret) := by decide
theorem test_decode_jp : decode 0b0001_0010_0011_0100#16 = .ok (.jp 0x234) := by decide
theorem test_decode_call : decode 0b0010_1111_1111_1111#16 = .ok (.call 0xFFF) := by decide
theorem test_decode_seImm : decode 0b0011_1111_0000_0101#16 = .ok (.seImm 15 0x05) := by decide
theorem test_decode_sneImm : decode 0b0100_0011_0001_0001#16 = .ok (.sneImm 3 0x11) := by decide
theorem test_decode_seReg : decode 0b0101_0001_0010_0000#16 = .ok (.seReg 1 2) := by decide
theorem test_decode_ldImm : decode 0b0110_1010_0010_1011#16 = .ok (.ldImm 10 0x2B) := by decide
theorem test_decode_addImm : decode 0b0111_0001_1111_1111#16 = .ok (.addImm 1 0xFF) := by decide
theorem test_decode_ldReg : decode 0b1000_0001_0010_0000#16 = .ok (.ldReg 1 2) := by decide
theorem test_decode_orReg : decode 0b1000_0001_0010_0001#16 = .ok (.orReg 1 2) := by decide
theorem test_decode_andReg : decode 0b1000_0001_0010_0010#16 = .ok (.andReg 1 2) := by decide
theorem test_decode_xorReg : decode 0b1000_0001_0010_0011#16 = .ok (.xorReg 1 2) := by decide
theorem test_decode_addReg : decode 0b1000_1111_0010_0100#16 = .ok (.addReg 15 2) := by decide
theorem test_decode_subReg : decode 0b1000_0001_0010_0101#16 = .ok (.subReg 1 2) := by decide
theorem test_decode_shrReg : decode 0b1000_0001_1111_0110#16 = .ok (.shrReg 1 15) := by decide
theorem test_decode_subnReg : decode 0b1000_0001_0010_0111#16 = .ok (.subnReg 1 2) := by decide
theorem test_decode_shlReg : decode 0b1000_0000_0000_1110#16 = .ok (.shlReg 0 0) := by decide
theorem test_decode_sneReg : decode 0b1001_0001_0010_0000#16 = .ok (.sneReg 1 2) := by decide
theorem test_decode_ldI : decode 0b1010_0010_1111_0000#16 = .ok (.ldI 0x2F0) := by decide
theorem test_decode_jpV0 : decode 0b1011_0011_0100_0101#16 = .ok (.jpV0 0x345 3) := by decide
theorem test_decode_rnd : decode 0b1100_0001_0000_1111#16 = .ok (.rnd 1 0x0F) := by decide
theorem test_decode_drw : decode 0b1101_1111_0001_0101#16 = .ok (.drw 15 1 5) := by decide
theorem test_decode_skp : decode 0b1110_0101_1001_1110#16 = .ok (.skp 5) := by decide
theorem test_decode_sknp : decode 0b1110_0000_1010_0001#16 = .ok (.sknp 0) := by decide
theorem test_decode_ldVxDt : decode 0b1111_0011_0000_0111#16 = .ok (.ldVxDt 3) := by decide
theorem test_decode_ldVxK : decode 0b1111_0011_0000_1010#16 = .ok (.ldVxK 3) := by decide
theorem test_decode_ldDtVx : decode 0b1111_0011_0001_0101#16 = .ok (.ldDtVx 3) := by decide
theorem test_decode_ldStVx : decode 0b1111_0000_0001_1000#16 = .ok (.ldStVx 0) := by decide
theorem test_decode_addI : decode 0b1111_0010_0001_1110#16 = .ok (.addI 2) := by decide
theorem test_decode_ldF : decode 0b1111_0011_0010_1001#16 = .ok (.ldF 3) := by decide
theorem test_decode_ldB : decode 0b1111_0000_0011_0011#16 = .ok (.ldB 0) := by decide
theorem test_decode_ldMemVx : decode 0b1111_0010_0101_0101#16 = .ok (.ldMemVx 2) := by decide
theorem test_decode_ldVxMem : decode 0b1111_0000_0110_0101#16 = .ok (.ldVxMem 0) := by decide

/-- Vectors F7 to F15: each class with illegal words has one here. -/
theorem test_decode_illegal :
    [0x0000#16, 0x0123, 0x00E1, 0x5121, 0x912F, 0x8128, 0x812D, 0x812F, 0xE19F, 0xE000, 0xF100, 0xF175].all
      (fun w => decide (decode w = .error (.invalid w))) = true := by decide

/-- Too few bytes are refused by name, and what follows an instruction is handed back (R91). -/
theorem test_decodeBytes_short : decodeBytes [0x12] = .error .tooShort := by decide
theorem test_decodeBytes_rest : decodeBytes [0x12, 0x34, 0x56] = .ok (.jp 0x234, [0x56]) := by decide

/-- Each opcode-table word is numbered with bit 0 at its least significant end. -/
theorem test_decodeTableWord : decodeTableWord 16 0xD125 = some (.drw 1 2 5) := by decide

/-! ### Fetching -/

/-- F1: the word is fetched big-endian. -/
theorem test_fetch_bigEndian :
    (run 0x1234 State.reset).pc = 0x234 := by decide

/-- F2: a fetch at an odd address is legal. -/
theorem test_fetch_odd :
    (run 0x6007 (State.reset.setPc 0x201)).pc = 0x203 ∧
    (run 0x6007 (State.reset.setPc 0x201)).reg 0 = 0x07 := by decide

/-- F3: the last word of memory can be fetched. -/
theorem test_fetch_last :
    (run 0x6A01 (State.reset.setPc 0xFFE)).pc = 0x1000 ∧
    (run 0x6A01 (State.reset.setPc 0xFFE)).reg 10 = 0x01 := by decide

/-- F4 and F6: the fetch bound and the address it records. -/
theorem test_fetch_bound :
    (after (step (State.reset.setPc 0xFFF))).halt = some ⟨.fetchOutOfBounds, 0xFFF, none, some 0x1000⟩ ∧
    (after (step (State.reset.setPc 0x10FE))).halt = some ⟨.fetchOutOfBounds, 0x10FE, none, some 0x10FE⟩ := by decide

/-- F12: an illegal word is recorded with its address. -/
theorem test_illegalWord_recorded :
    (run 0x8128 State.reset).halt = some ⟨.invalidOpcode, 0x200, some 0x8128, none⟩ ∧
    (run 0x8128 State.reset).pc = 0x200 := by decide

/-- R27: the first and the last byte of the reference font, and the bytes beside it. -/
theorem test_reset_font :
    State.reset.byteAt 0x50 = 0xF0 ∧ State.reset.byteAt 0x9F = 0x80 ∧ State.reset.byteAt 0x4F = 0 ∧
    State.reset.byteAt 0xA0 = 0 := by decide

/-! ### Control flow -/

/-- C2: a jump to itself. -/
theorem test_jp_self :
    (run 0x1200 State.reset).pc = 0x200 := by decide

/-- C3. -/
theorem test_call_pushes :
    (run 0x2400 (State.reset.setPc 0x300)).stack[0] = 0x302 ∧ (run 0x2400 (State.reset.setPc 0x300)).pc = 0x400 ∧
    (run 0x2400 (State.reset.setPc 0x300)).sp = 1 := by decide

/-- C5. -/
theorem test_call_overflows :
    (run 0x2400 (withSp 16 State.reset)).halt = some ⟨.stackOverflow, 0x200, some 0x2400, none⟩ ∧
    (run 0x2400 (withSp 16 State.reset)).sp = 16 := by decide

/-- C6. -/
theorem test_ret_pops :
    (run 0x00EE (withSp 1 { State.reset with stack := State.reset.stack.set 0 0x204 })).pc = 0x204 ∧
    (run 0x00EE (withSp 1 State.reset)).sp = 0 := by decide

/-- C7. -/
theorem test_ret_underflows :
    (run 0x00EE State.reset).halt = some ⟨.stackUnderflow, 0x200, some 0x00EE, none⟩ := by decide

/-- C8 and C9. -/
theorem test_seImm :
    (run 0x3005 (State.reset.setReg 0 5)).pc = 0x204 ∧ (run 0x3005 (State.reset.setReg 0 6)).pc = 0x202 := by decide

/-- C10 and C11. -/
theorem test_sneImm :
    (run 0x4311 (State.reset.setReg 3 0x10)).pc = 0x204 ∧
    (run 0x4310 (State.reset.setReg 3 0x10)).pc = 0x202 := by decide

/-- C12. -/
theorem test_seReg :
    (run 0x5120 (regs 1 7 2 7)).pc = 0x204 ∧ (run 0x5120 (regs 1 7 2 8)).pc = 0x202 := by decide

/-- C14 and C15. -/
theorem test_sneReg :
    (run 0x9120 (regs 1 7 2 8)).pc = 0x204 ∧ (run 0x9110 (regs 1 7 2 8)).pc = 0x202 := by decide

/-- C20 and C21: V[0] is added, up to the highest target. -/
theorem test_jpV0_off :
    (run 0xB345 (regs 3 2 0 0x10)).pc = 0x355 ∧ (run 0xBFFF (State.reset.setReg 0 0xFF)).pc = 0x10FE := by decide

/-- C19: V[x] is added under jump_add_offset. -/
theorem test_jpV0_on :
    (run 0xB345 (withCfg (setJumpAddOffset true) (regs 3 2 0 0x10))).pc = 0x347 := by decide

/-! ### Arithmetic and logic; VF starts at 7 where no flag is expected -/

/-- A1. -/
theorem test_ldImm :
    (run 0x6A2B State.reset).reg 10 = 0x2B := by decide

/-- A2 and A3: wraps, no flag. -/
theorem test_addImm_wraps :
    (run 0x7120 (regs 1 0xF0 15 7)).reg 1 = 0x10 ∧ (run 0x7120 (regs 1 0xF0 15 7)).reg 15 = 7 := by decide

/-- A5: VF as the destination. -/
theorem test_addImm_vf :
    (run 0x7F01 (State.reset.setReg 15 7)).reg 15 = 8 := by decide

/-- A6. -/
theorem test_ldReg :
    (run 0x8120 (regs 1 3 2 9)).reg 1 = 9 ∧ (run 0x8120 (regs 1 3 2 9)).reg 2 = 9 := by decide

/-- A7. -/
theorem test_orReg :
    (run 0x8121 (regs 1 0x0F 2 0xF0)).reg 1 = 0xFF ∧
    (run 0x8121 ((regs 1 0x0F 2 0xF0).setReg 15 7)).reg 15 = 7 := by decide

/-- A8. -/
theorem test_andReg :
    (run 0x8122 (regs 1 0x3C 2 0x0F)).reg 1 = 0x0C ∧
    (run 0x8122 ((regs 1 0x3C 2 0x0F).setReg 15 7)).reg 15 = 7 := by decide

/-- A9 and A10. -/
theorem test_xorReg :
    (run 0x8123 (regs 1 0x3C 2 0x0F)).reg 1 = 0x33 ∧ (run 0x8113 (State.reset.setReg 1 0x3C)).reg 1 = 0 := by decide

/-- E4: add(200, 100) wraps to 44 with VF = 1. -/
theorem test_addReg_carries :
    (run 0x8124 (regs 1 0xC8 2 0x64)).reg 1 = 0x2C ∧ (run 0x8124 (regs 1 0xC8 2 0x64)).reg 15 = 1 := by decide

/-- A15: y = F. -/
theorem test_addReg_readsFlag :
    (run 0x81F4 (regs 1 0x10 15 7)).reg 1 = 0x17 ∧ (run 0x81F4 (regs 1 0x10 15 7)).reg 15 = 0 := by decide

/-- E7: sub(25, 100) is 181 with VF = 0. -/
theorem test_subReg_borrows :
    (run 0x8125 (regs 1 0x19 2 0x64)).reg 1 = 0xB5 ∧ (run 0x8125 (regs 1 0x19 2 0x64)).reg 15 = 0 := by decide

/-- A17: equal operands do not borrow. -/
theorem test_subReg_equal :
    (run 0x8125 (regs 1 5 2 5)).reg 1 = 0 ∧ (run 0x8125 (regs 1 5 2 5)).reg 15 = 1 := by decide

/-- A21. -/
theorem test_subnReg_borrows :
    (run 0x8127 (regs 1 1 2 0)).reg 1 = 0xFF ∧ (run 0x8127 (regs 1 1 2 0)).reg 15 = 0 := by decide

/-- A22. -/
theorem test_subnReg :
    (run 0x8127 (regs 1 0x19 2 0x64)).reg 1 = 0x4B ∧ (run 0x8127 (regs 1 0x19 2 0x64)).reg 15 = 1 := by decide

/-- A25: y is ignored. -/
theorem test_shrReg :
    (run 0x8126 (regs 1 0x81 2 0)).reg 1 = 0x40 ∧ (run 0x8126 (regs 1 0x81 2 0)).reg 15 = 1 := by decide

/-- E9: legacy_shift takes V[y]. -/
theorem test_shrReg_legacy :
    (run 0x8126 (withCfg (setLegacyShift true) (regs 1 0 2 5))).reg 1 = 2 ∧
    (run 0x8126 (withCfg (setLegacyShift true) (regs 1 0 2 5))).reg 15 = 1 := by decide

/-- A30. -/
theorem test_shlReg :
    (run 0x812E (regs 1 0x81 2 0)).reg 1 = 2 ∧ (run 0x812E (regs 1 0x81 2 0)).reg 15 = 1 := by decide

/-- A31. -/
theorem test_shlReg_legacy :
    (run 0x812E (withCfg (setLegacyShift true) (regs 1 0xFF 2 0x40))).reg 1 = 0x80 ∧
    (run 0x812E (withCfg (setLegacyShift true) (regs 1 0xFF 2 0x40))).reg 15 = 0 := by decide

/-- A34: no bit outside the mask, whatever the draw. -/
theorem test_rnd_maskZero :
    (run 0xC100 (State.reset.setReg 1 9)).pc = 0x202 ∧ (run 0xC100 (State.reset.setReg 1 9)).fresh = 1 := by decide

/-! ### Index register and memory -/

/-- T1. -/
theorem test_ldI :
    (run 0xA2F0 State.reset).i = 0x2F0 := by decide

/-- T3: no flag above 0xFFF. -/
theorem test_addI_noFlag :
    (run 0xF21E ((regs 2 1 15 7).setI 0xFFF)).i = 0x1000 ∧
    (run 0xF21E ((regs 2 1 15 7).setI 0xFFF)).reg 15 = 7 := by decide

/-- T4. -/
theorem test_addI_wraps :
    (run 0xF21E ((State.reset.setReg 2 1).setI 0xFFFF)).i = 0 := by decide

/-- T6, T8 and T9: no masking to a glyph number. -/
theorem test_ldF :
    (run 0xF329 (State.reset.setReg 3 0x0A)).i = 0x82 ∧ (run 0xF329 (State.reset.setReg 3 0x10)).i = 0xA0 ∧
    (run 0xF329 (State.reset.setReg 3 0xFF)).i = 0x54B := by decide

/-- T14. -/
theorem test_ldB_lastBytes :
    (run 0xF033 ((State.reset.setReg 0 0xFE).setI 0xFFD)).mem = [(0x200, 0xF0), (0x201, 0x33), (0xFFD, 2), (0xFFE, 5), (0xFFF, 4)] := by decide

/-- T15. -/
theorem test_ldB_faults :
    (run 0xF033 (State.reset.setI 0xFFE)).halt = some ⟨.writeOutOfBounds, 0x200, some 0xF033, some 0x1000⟩ ∧
    (run 0xF033 (State.reset.setI 0xFFE)).byteAt 0xFFE = 0 := by decide

/-- T17. -/
theorem test_ldMemVx_lastBytes :
    (run 0xF155 ((regs 0 0x11 1 0x22).setI 0xFFE)).byteAt 0xFFE = 0x11 ∧
    (run 0xF155 ((regs 0 0x11 1 0x22).setI 0xFFE)).byteAt 0xFFF = 0x22 := by decide

/-- T18 and T19. -/
theorem test_ldMemVx_bounds :
    (run 0xF255 (State.reset.setI 0xFFE)).halt = some ⟨.writeOutOfBounds, 0x200, some 0xF255, some 0x1000⟩ ∧
    (run 0xFF55 (withCfg (setMemoryIncrementIndex true) (State.reset.setI 0xFF0))).i = 0x1000 := by decide

/-- T21. -/
theorem test_ldVxMem :
    (run 0xF265 ((State.reset.storeBytes 0x300 [2, 5, 4]).setI 0x300)).reg 0 = 2 ∧
    (run 0xF265 ((State.reset.storeBytes 0x300 [2, 5, 4]).setI 0x300)).reg 2 = 4 ∧
    (run 0xF265 ((State.reset.storeBytes 0x300 [2, 5, 4]).setI 0x300)).i = 0x300 := by decide

/-- T24. -/
theorem test_ldVxMem_faults :
    (run 0xFF65 (State.reset.setI 0xFFA)).halt = some ⟨.readOutOfBounds, 0x200, some 0xFF65, some 0x1000⟩ := by decide

/-- T25: the font is not protected. -/
theorem test_ldB_overFont :
    (run 0xF033 ((State.reset.setReg 0 0x64).setI 0x50)).byteAt 0x50 = 1 ∧
    (run 0xF033 (State.reset.setI 0x50)).halt = none := by decide

/-! ### Display -/

/-- A state about to draw: V[0] = column, V[1] = row, I = 0x300, the sprite's bytes there. -/
def sprite (column row : Byte) (bytes : List Byte) : State :=
  ((regs 0 column 1 row).storeBytes 0x300 bytes).setI 0x300

/-- A state with one pixel on. -/
def lit (px py : Nat) (s : State) : State := (s.toggle px py).2

/-- X1: a clear marks dirty even on a blank screen. -/
theorem test_cls :
    (run 0x00E0 State.reset).dirty = true ∧ (run 0x00E0 (lit 5 5 State.reset)).pixel 5 5 = false := by decide

/-- X5: the start wraps. -/
theorem test_drw_startWraps :
    (run 0xD011 (sprite 70 33 [0x80])).pixel 6 1 = true ∧ (run 0xD011 (sprite 70 33 [0x80])).reg 15 = 0 := by decide

/-- X7: a collision is kept through later rows. -/
theorem test_drw_collision :
    (run 0xD012 (lit 0 0 (sprite 0 0 [0x80, 0x80]))).reg 15 = 1 ∧
    (run 0xD012 (lit 0 0 (sprite 0 0 [0x80, 0x80]))).pixel 0 0 = false ∧
    (run 0xD012 (lit 0 0 (sprite 0 0 [0x80, 0x80]))).pixel 0 1 = true := by decide

/-- X9: columns beyond the screen are clipped, not wrapped. -/
theorem test_drw_clips :
    (run 0xD011 (sprite 60 0 [0xFF])).pixel 63 0 = true ∧ (run 0xD011 (sprite 60 0 [0xFF])).pixel 59 0 = false ∧
    (run 0xD011 (sprite 60 0 [0xFF])).pixel 0 0 = false := by decide

/-- X11: no row. -/
theorem test_drw_noRow :
    (run 0xD010 (State.reset.setReg 15 5)).reg 15 = 0 ∧
    (run 0xD010 (State.reset.setReg 15 5)).dirty = false := by decide

/-- X14: rows that would be clipped are checked too. -/
theorem test_drw_faults :
    (run 0xD013 ((regs 1 31 15 9).setI 0xFFE)).halt = some ⟨.readOutOfBounds, 0x200, some 0xD013, some 0x1000⟩ ∧
    (run 0xD013 ((regs 1 31 15 9).setI 0xFFE)).reg 15 = 9 := by decide

/-! ### Keypad and timers -/

/-- K1 and K2. -/
theorem test_skp :
    (run 0xE59E ((State.reset.setReg 5 10).setKey 10 true)).pc = 0x204 ∧
    (run 0xE59E (State.reset.setReg 5 10)).pc = 0x202 := by decide

/-- K4. -/
theorem test_skp_faults :
    (run 0xE59E (State.reset.setReg 5 0x10)).halt = some ⟨.keyIndexOutOfRange, 0x200, some 0xE59E, none⟩ := by decide

/-- K3. -/
theorem test_sknp :
    (run 0xE5A1 (State.reset.setReg 5 10)).pc = 0x204 ∧
    (run 0xE5A1 ((State.reset.setReg 5 10).setKey 10 true)).pc = 0x202 := by decide

/-- K5. -/
theorem test_sknp_faults :
    (run 0xE5A1 (State.reset.setReg 5 0xFF)).halt = some ⟨.keyIndexOutOfRange, 0x200, some 0xE5A1, none⟩ := by decide

/-- K6. -/
theorem test_ldVxDt :
    (run 0xF307 (State.reset.setDt 0x3C)).reg 3 = 0x3C := by decide

/-- K7. -/
theorem test_ldDtVx :
    (run 0xF315 (State.reset.setReg 3 0x3C)).dt = 0x3C := by decide

/-- K8. -/
theorem test_ldStVx :
    (run 0xF018 (State.reset.setReg 0 2)).st = 2 ∧
    isSoundPlaying (run 0xF018 (State.reset.setReg 0 2)) = true := by decide

/-- K10: the lowest key wins and PC stays. -/
theorem test_ldVxK_latches :
    (run 0xF30A ((State.reset.setKey 9 true).setKey 4 true)).latch = some 4 ∧
    (run 0xF30A ((State.reset.setKey 9 true).setKey 4 true)).pc = 0x200 := by decide

/-- K12: the release completes it, another key held or not. -/
theorem test_ldVxK_completes :
    (run 0xF30A ((State.reset.setKey 9 true).setLatch (some 4))).reg 3 = 4 ∧
    (run 0xF30A ((State.reset.setKey 9 true).setLatch (some 4))).latch = none ∧
    (run 0xF30A ((State.reset.setKey 9 true).setLatch (some 4))).pc = 0x202 := by decide

/-! ### Host operations -/

/-- F17: a halted core does nothing. -/
theorem test_halted_frame :
    after (step halted) = halted ∧ after (runFrame { halted with dt := 5 }) = { halted with dt := 5 } := by decide

/-- K14: a frame of no instructions ticks the timers. -/
theorem test_frame_ticks :
    (after (runFrame (withCfg (setInstructionsPerFrame 0) ((State.reset.setDt 1).setSt 2)))).dt = 0 ∧
    (after (runFrame (withCfg (setInstructionsPerFrame 0) ((State.reset.setDt 1).setSt 2)))).st = 1 := by decide

/-- H1 and H3. -/
theorem test_keyCalls :
    call (.keyDown 16) State.reset = (.error .invalidKeyIndex, State.reset) ∧
    (call (.keyUp 3) ((State.reset.setKey 3 true).setLatch (some 3))).2.latch = some 3 := by decide

/-- H4 and H5. -/
theorem test_snapshot_clearsDirty :
    (call .snapshot { State.reset with dirty := true }).2.dirty = false ∧
    (call .isDirty { State.reset with dirty := true }).1 = .flag true := by decide

/-- H8. -/
theorem test_load_clearsHalt :
    (call (.load [0x12, 0x00]) (halted.setReg 1 5)).2.mem = [(0x200, 0x12)] ∧
    (call (.load [0x12, 0x00]) (halted.setReg 1 5)).2.halt = none ∧
    (call (.load [0x12, 0x00]) (halted.setReg 1 5)).2.reg 1 = 5 := by decide

/-- E13: a write that does not fit changes nothing. -/
theorem test_hostWrite_refused :
    hostWrite 0xFFF [1, 2] State.reset = .error .badAddress ∧
    hostWrite 4096 [] State.reset = .error .badAddress := by decide

/-! ### Witnesses: states and operands that meet the hypotheses of the obligations, clause by clause -/

/-- A state at the edges of the invariant: PC at its highest value, the stack full of the highest return address, a byte
listed. -/
def edge : State :=
  { State.reset with pc := 0x10FE, sp := 16, stack := Vector.replicate 16 0x1000, mem := [(0xFFF, 1)] }

theorem witness_StepKeepsTheInvariant : edge.Inv ∧ step edge = .next (after (step edge)) :=
  ⟨⟨by decide, fun k h _ => by simp [edge], by decide⟩, rfl⟩

theorem witness_HostCallsKeepTheInvariant :
    edge.Inv ∧ ∀ cfg font init,
      HostCall.construct cfg font init ∈ [HostCall.step, .construct Cfg.reference Font.reference InitState.cleanReset] →
      Memory.wf init.mem = true := by
  refine ⟨witness_StepKeepsTheInvariant.1, fun cfg font init h => ?_⟩
  simp only [List.mem_cons, reduceCtorEq, HostCall.construct.injEq, false_or, List.not_mem_nil, or_false] at h
  rw [h.2.2]
  decide

theorem witness_DecodeOfEncodeIsTheInstruction : (Instr.jpV0 0xFFF 15).wellFormed = true := by decide

theorem witness_EncodeOfDecodeIsTheWord : decode 0xBFFF = .ok (.jpV0 0xFFF 15) := by decide

theorem witness_DecodeAgreesWithOpcodeTable :
    decode 0xE59E = .ok (.skp 5) ∧ ⟨0xF0FF, 0xE09E⟩ ∈ opcodeTable ∧
    (⟨0xF0FF, 0xE09E⟩ : OpcodeRow).matches 0xE59E = true := by decide

theorem witness_StepRunsTheDecodedInstruction :
    (State.reset.withFetchWord 16 0x1234).halt = none ∧
    (State.reset.withFetchWord 16 0x1234).pc.toNat + 1 ≤ 0xFFF ∧
    decode (BitVec.ofNat 16 (256 * ((State.reset.withFetchWord 16 0x1234).byteAt 0x200).toNat +
      ((State.reset.withFetchWord 16 0x1234).byteAt 0x201).toNat)) = .ok (.jp 0x234) := by decide

theorem witness_FetchOutOfBoundsRaises :
    (State.reset.setPc 0xFFF).halt = none ∧ (State.reset.setPc 0xFFF).pc.toNat + 1 > 0xFFF := by decide

theorem witness_IllegalWordRaisesInvalidOpcode :
    State.reset.halt = none ∧ State.reset.pc.toNat + 1 ≤ 0xFFF ∧
    (0x0000 : Word).toNat = 256 * (State.reset.byteAt 0x200).toNat + (State.reset.byteAt 0x201).toNat ∧
    ∀ r ∈ opcodeTable, r.matches 0x0000 = false := by decide

theorem witness_HaltedCoreDoesNothing : halted.halt = some someRecord := by decide

/-- Also of HaltIsStickyUntilLoad's second hypothesis: a load that succeeds clears the record. -/
theorem witness_HaltIsStickyUntilLoad :
    halted.halt = some someRecord ∧ (call (.load []) halted).2.halt ≠ some someRecord := by decide

theorem witness_FaultsArePrecise :
    step State.reset = .next (after (step State.reset)) ∧ State.reset.halt = none ∧
    (after (step State.reset)).halt = some ⟨.invalidOpcode, 0x200, some 0, none⟩ := ⟨rfl, by decide, by decide⟩

/-- exec answers a next state whose HALT has the cause given. -/
def faultsWith (i : Instr) (s : State) (c : FaultCause) : Bool :=
  decide (s.halt = none) && ((after (exec i s)).halt.map FaultRecord.cause == some c)

/-- Every clause of OnlyTheListedCausesFault, at a boundary value. -/
theorem witness_OnlyTheListedCausesFault :
    faultsWith (.call 0x400) (withSp 16 State.reset) .stackOverflow = true ∧
    faultsWith .ret State.reset .stackUnderflow = true ∧
    faultsWith (.drw 0 1 2) (State.reset.setI 0xFFF) .readOutOfBounds = true ∧
    faultsWith (.ldVxMem 1) (State.reset.setI 0xFFF) .readOutOfBounds = true ∧
    faultsWith (.ldB 0) (State.reset.setI 0xFFE) .writeOutOfBounds = true ∧
    faultsWith (.ldMemVx 15) (State.reset.setI 0xFF1) .writeOutOfBounds = true ∧
    faultsWith (.skp 5) (State.reset.setReg 5 16) .keyIndexOutOfRange = true ∧
    faultsWith (.sknp 5) (State.reset.setReg 5 16) .keyIndexOutOfRange = true := by decide

theorem witness_ConfigurationNeverChanges :
    ∀ cfg font init, HostCall.runFrame ≠ .construct cfg font init := by intro _ _ _ h; cases h

theorem witness_OnlyListedInstructionsWriteRegisters :
    exec (.ldImm 3 1) State.reset = .next (after (exec (.ldImm 3 1) State.reset)) ∧
    (after (exec (.ldImm 3 1) State.reset)).reg 3 ≠ State.reset.reg 3 := ⟨rfl, by decide⟩

theorem witness_OnlyCallAndReturnTouchTheStack :
    exec (.call 0x400) State.reset = .next (after (exec (.call 0x400) State.reset)) ∧
    (after (exec (.call 0x400) State.reset)).sp ≠ State.reset.sp ∧
    (after (exec (.call 0x400) State.reset)).stack[0] ≠ State.reset.stack[0] := ⟨rfl, by decide, by decide⟩

theorem witness_OnlyDigitsAndBlockStoreWriteMemory :
    Memory.wf (State.reset.setReg 0 9).mem = true ∧
    (after (exec (.ldMemVx 0) ((State.reset.setReg 0 9).setI 0xFFF))).byteAt 0xFFF ≠ State.reset.byteAt 0xFFF ∧
    (after (exec (.ldB 0) ((State.reset.setReg 0 9).setI 0xFFD))).byteAt 0xFFF ≠ State.reset.byteAt 0xFFF := by decide

theorem witness_OnlyClearAndDrawChangeTheScreen :
    (after (exec .cls State.reset)).dirty ≠ State.reset.dirty ∧
    (after (exec (.drw 0 1 1) (sprite 0 0 [0x80]))).fb ≠ (sprite 0 0 [0x80]).fb := by decide

theorem witness_KeypadAndTimerWriters :
    (after (exec (.ldVxK 0) (State.reset.setKey 15 true))).latch = some 15 ∧
    (after (exec (.ldDtVx 0) (State.reset.setReg 0 1))).dt ≠ State.reset.dt ∧
    (after (exec (.ldStVx 0) (State.reset.setReg 0 1))).st ≠ State.reset.st := by decide

theorem witness_ReturnPopsTheStack : 0 < (withSp 1 State.reset).sp.val ∧ State.reset.sp.val = 0 := by decide

theorem witness_JumpSetsPc :
    (0xFFF : BitVec 12).toNat = 0xFFF ∧ State.reset.halt = none ∧ (0x200 : BitVec 12).toNat = State.reset.pc.toNat := by
  decide

/-- For CallThenReturnComesBack too. -/
theorem witness_CallPushesTheReturnAddress :
    (withSp 15 State.reset).sp.val < 16 ∧ (withSp 16 State.reset).sp.val = 16 ∧
    (15 : Fin 16).val = (withSp 15 State.reset).sp.val ∧ (0 : Fin 16).val ≠ (withSp 15 State.reset).sp.val := by decide

theorem witness_JumpWithOffsetAddsARegister : (15 : Reg).val = (0xFFF : BitVec 12).toNat / 256 := by decide

/-- For AddRegistersSetsCarry, SubtractionsSetNoBorrow and ShiftsMoveOneBitIntoFlag; and the operand of the last two
shift statements. -/
theorem witness_notTheFlagRegister :
    (14 : Reg) ≠ regF ∧
    255 = (if (State.reset.setReg 14 255).cfg.legacyShift then (State.reset.setReg 14 255).reg 1
      else (State.reset.setReg 14 255).reg 14).toNat := by decide

/-- For AliasedFlagOfShifts. -/
theorem witness_AliasedFlagOfShifts :
    255 = (if (State.reset.setReg 15 255).cfg.legacyShift then (State.reset.setReg 15 255).reg 0
      else (State.reset.setReg 15 255).reg regF).toNat := by decide

theorem witness_DigitsAreStored :
    Memory.wf State.reset.mem = true ∧ (State.reset.setI 0xFFD).indexBase + 2 ≤ 0xFFF ∧
    (State.reset.setI 0xFFE).indexBase + 2 > 0xFFF := by decide

/-- For BlockLoadReadsRegisters too. -/
theorem witness_BlockStoreWritesRegisters :
    Memory.wf State.reset.mem = true ∧ (State.reset.setI 0xFF0).indexBase + (15 : Reg).val ≤ 0xFFF ∧
    (State.reset.setI 0xFF1).indexBase + (15 : Reg).val > 0xFFF := by decide

/-- The hypotheses of RangeIsCheckedBeforeAnything about an instruction. -/
def leavesMemoryAt (s : State) (i : Instr) (len a : Nat) : Prop :=
  ((∃ x y n, i = .drw x y n ∧ len = n.toNat) ∨ (∃ x, i = .ldB x ∧ len = 3) ∨
    (∃ x, (i = .ldMemVx x ∨ i = .ldVxMem x) ∧ len = x.val + 1)) ∧
  s.i.toNat ≤ a ∧ a < s.i.toNat + len ∧ a > 0xFFF ∧ ∀ b, s.i.toNat ≤ b → b < a → b ≤ 0xFFF

/-- A sprite whose second row alone is outside. -/
theorem witness_RangeIsCheckedBeforeAnything_drw : leavesMemoryAt (State.reset.setI 0xFFF) (.drw 0 1 2) 2 0x1000 :=
  ⟨.inl ⟨0, 1, 2, rfl, rfl⟩, by decide, by decide, by decide, fun _ _ h => Nat.le_of_lt_succ h⟩

theorem witness_RangeIsCheckedBeforeAnything_ldB : leavesMemoryAt (State.reset.setI 0xFFE) (.ldB 0) 3 0x1000 :=
  ⟨.inr (.inl ⟨0, rfl, rfl⟩), by decide, by decide, by decide, fun _ _ h => Nat.le_of_lt_succ h⟩

theorem witness_RangeIsCheckedBeforeAnything_ldMemVx : leavesMemoryAt (State.reset.setI 0xFF1) (.ldMemVx 15) 16 0x1000 :=
  ⟨.inr (.inr ⟨15, .inl rfl, rfl⟩), by decide, by decide, by decide, fun _ _ h => Nat.le_of_lt_succ h⟩

/-- The whole range is outside, and a 16-bit sum would wrap. -/
theorem witness_RangeIsCheckedBeforeAnything_ldVxMem : leavesMemoryAt (State.reset.setI 0xFFFF) (.ldVxMem 1) 2 0xFFFF :=
  ⟨.inr (.inr ⟨1, .inr rfl, rfl⟩), by decide, by decide, by decide, fun _ h h' => absurd h' (Nat.not_lt.2 h)⟩

/-- A host write whose second byte is outside, and an empty one at the memory's end. -/
theorem witness_RangeIsCheckedBeforeAnything_hostWrite :
    (1 < max ([1, 2] : List Byte).length 1 ∧ 0xFFF + 1 > 0xFFF) ∧
    (0 < max ([] : List Byte).length 1 ∧ 4096 + 0 > 0xFFF) := by decide

theorem witness_StoreThenLoadRestoresRegisters :
    Memory.wf State.reset.mem = true ∧ (State.reset.setI 0xFF0).indexBase + (15 : Reg).val ≤ 0xFFF ∧
    exec (.ldMemVx 15) (State.reset.setI 0xFF0) = .next (after (exec (.ldMemVx 15) (State.reset.setI 0xFF0))) ∧
    (after (exec (.ldMemVx 15) (State.reset.setI 0xFF0))).i = (State.reset.setI 0xFF0).i :=
  ⟨by decide, by decide, rfl, by decide⟩

/-- On the state and the store of witness_StoreThenLoadRestoresRegisters. -/
theorem witness_StoredBytesAreFetched : 14 + 1 < 16 ∧ 14 + 1 ≤ (15 : Reg).val := by decide

theorem witness_ToggleInsideAndOutside : (63 < 64 ∧ 31 < 32) ∧ (64 ≥ 64 ∨ 0 ≥ 32) ∧ (0 ≥ 64 ∨ 32 ≥ 32) := by decide

theorem witness_DrawSpriteIsXorWithCollision :
    (0 : BitVec 4).toNat = 0 ∧ (State.reset.setI 0xFF1).i.toNat + ((15 : BitVec 4).toNat - 1) ≤ 0xFFF ∧
    0 < (15 : BitVec 4).toNat ∧ (State.reset.setI 0xFF2).i.toNat + ((15 : BitVec 4).toNat - 1) > 0xFFF := by decide

theorem witness_KeySkipsTestTheKey :
    ((State.reset.setReg 5 15).reg 5).toNat = (15 : Key).val ∧ ((State.reset.setReg 5 16).reg 5).toNat > 15 := by decide

/-- A state that waits with one key latched. -/
def waiting (k : Key) (down : Bool) : State := (State.reset.setKey k down).setLatch (some k)

theorem witness_WaitForKeyProtocol :
    (State.reset.latch = none ∧ ∀ k, State.reset.keyDown k = false) ∧
    ((State.reset.setKey 15 true).latch = none ∧ (State.reset.setKey 15 true).keyDown 15 = true ∧
      ∀ j : Key, j < 15 → (State.reset.setKey 15 true).keyDown j = false) ∧
    ((waiting 15 true).latch = some 15 ∧ (waiting 15 true).keyDown 15 = true) ∧
    ((waiting 0 false).latch = some 0 ∧ (waiting 0 false).keyDown 0 = false) := by decide

theorem witness_FrameTicksThenSteps : State.reset.halt = none := by decide

theorem witness_LoadPlacesTheProgram :
    Memory.wf State.reset.mem = true ∧ (List.replicate 3584 (0 : Byte)).length ≤ 3584 ∧
    (List.replicate 3585 (0 : Byte)).length > 3584 :=
  ⟨by decide, by rw [List.length_replicate], by rw [List.length_replicate]; decide⟩

theorem witness_KeyCallsSetOneKey : 15 < 16 ∧ 16 > 15 := by decide

/-- For every clause: the second asks for a core that is not halted alone. -/
theorem witness_SoundPlaysWhileTimerRuns :
    (withCfg (setInstructionsPerFrame 0) State.reset).halt = none ∧
    (withCfg (setInstructionsPerFrame 0) State.reset).cfg.instructionsPerFrame = 0 ∧
    runFrame (withCfg (setInstructionsPerFrame 0) State.reset) =
      .next (after (runFrame (withCfg (setInstructionsPerFrame 0) State.reset))) := ⟨rfl, rfl, rfl⟩

theorem witness_HostErrorsChangeNothing :
    call (.keyUp 16) State.reset = (.error .invalidKeyIndex, State.reset) := by decide

theorem witness_ConstructSetsTheResetState : Memory.wf InitState.cleanReset.mem = true := by decide

/-- A run sits at the stop address 0x200 when the word there jumps to itself (spec/60_exceptions.md R308). -/
theorem witness_atStop : (State.reset.withFetchWord 16 0x1200).atStop 0x200 := by
  exact ⟨by decide, by decide⟩

end Sys2Proof.Tests
end

section
/-! PROOFS. Control flow (spec/41_control_flow.md): what PC becomes, and that a move of PC is outside every frame. -/

namespace Sys2Proof.Machine

/-! ### Frames: what `Unchanged` admits -/

theorem Unchanged.refl (w : Writes) (s : State) : Unchanged w s s where
  regs _ _ := rfl
  index _ := rfl
  stack _ := ⟨rfl, rfl⟩
  delay _ := rfl
  sound _ := rfl
  bytes _ _ := rfl
  screen _ := ⟨rfl, rfl⟩
  keys := rfl
  latch _ := rfl
  halt := rfl
  cfg := rfl
  fresh _ := rfl

/-- PC is in no frame: it may be written after any other effect. -/
theorem Unchanged.setPc {w : Writes} {s t : State} (h : Unchanged w s t) (pc : Word) : Unchanged w s (t.setPc pc) :=
  { h with }

theorem Unchanged.advance {w : Writes} {s t : State} (h : Unchanged w s t) : Unchanged w s t.advance :=
  h.setPc (t.pc + 2)

theorem Unchanged.skipIf {w : Writes} {s t : State} (h : Unchanged w s t) (c : Bool) : Unchanged w s (t.skipIf c) := by
  cases c with
  | true => exact h.advance
  | false => exact h

/-- Writing SP and the entries leaves everything but the stack. -/
theorem unchanged_stackWrites (s : State) (sp : Fin 17) (stack : Vector Word 16) :
    Unchanged { stack := true } s { s with sp := sp, stack := stack } :=
  { Unchanged.refl { stack := true } s with stack := nofun }

/-! ### PC after an instruction -/

theorem pcMoved_advance (s : State) : pcMoved 2 s s.advance := by
  simp [pcMoved, BitVec.toNat_add]

/-- The second advance of a taken skip is on the PC already advanced (spec/41_control_flow.md R132). -/
theorem pcMoved_skipIf (s : State) (c : Bool) : pcMoved (if c then 4 else 2) s (s.advance.skipIf c) := by
  cases c with
  | true => simp [pcMoved, State.skipIf_pc, BitVec.toNat_add]
  | false => exact pcMoved_advance s

/-- An instruction that only skips: PC at a + 4 or at a + 2, by its condition, and all else as before. -/
theorem completes_of_exec_skipIf {i : Instr} {s : State} {c : Bool} (h : exec i s = .next (s.advance.skipIf c)) :
    Completes i s fun t => pcMoved (if c then 4 else 2) s t ∧ Unchanged {} s t :=
  ⟨_, h, pcMoved_skipIf s c, (Unchanged.refl {} s).advance.skipIf c⟩

/-- The target of `Bnnn` does not wrap: 0xFFF + 0xFF is 0x10FE. -/
theorem zext16_add_byteToWord_toNat (nnn : BitVec 12) (b : Byte) :
    (zext16 nnn + byteToWord b).toNat = nnn.toNat + b.toNat := by
  have hn := nnn.isLt
  have hb := b.isLt
  rw [BitVec.toNat_add, zext16_toNat, byteToWord_toNat]
  omega

/-! ### Faults raised by an instruction, and the words they record -/

theorem raises_of_exec_raiseBy {i : Instr} {s : State} {cause : FaultCause} {addr : Option Nat}
    (h : exec i s = raiseBy i cause addr s) : Raises i s cause (encode i) addr := h

theorem encode_call (nnn : BitVec 12) : encode (.call nnn) = BitVec.ofNat 16 (0x2000 + nnn.toNat) := by
  have hn := nnn.isLt
  apply BitVec.eq_of_toNat_eq
  rw [encode, wordNNN_toNat, BitVec.toNat_ofNat]
  have h2 : (0x2 : BitVec 4).toNat = 2 := rfl
  omega

/-! ### The stack instructions -/

/-- Everything RET can do: raise on an empty stack, else take PC from the entry at the new SP. -/
theorem exec_ret_cases (s : State) :
    (s.sp.val = 0 ∧ exec .ret s = raiseBy .ret .stackUnderflow none s) ∨
    ∃ h : 0 < s.sp.val, exec .ret s = .next (State.setPc
      { s with sp := ⟨s.sp.val - 1, by have := s.sp.isLt; omega⟩ }
      (s.stack[s.sp.val - 1]'(by have := s.sp.isLt; omega))) := by
  rcases s.advance.pop?_cases with ⟨hpop, hsp⟩ | ⟨hsp, hpop⟩
  · exact .inl ⟨hsp, by simp [exec, execRet, hpop]⟩
  · exact .inr ⟨hsp, by simp only [exec, execRet, hpop]; rfl⟩

/-- Everything CALL can do: raise on a full stack, else place a + 2 at the old SP and jump. -/
theorem exec_call_cases (s : State) (nnn : BitVec 12) :
    (s.sp.val = 16 ∧ exec (.call nnn) s = raiseBy (.call nnn) .stackOverflow none s) ∨
    ∃ h : s.sp.val < 16, exec (.call nnn) s = .next (State.setPc
      { s with sp := ⟨s.sp.val + 1, by omega⟩, stack := s.stack.set s.sp.val (s.pc + 2) } (zext16 nnn)) := by
  rcases s.advance.push?_cases s.advance.pc with ⟨hpush, hsp⟩ | ⟨hsp, hpush⟩
  · exact .inl ⟨hsp, by simp only [exec, execCall, hpush]⟩
  · exact .inr ⟨hsp, by simp only [exec, execCall, hpush]; rfl⟩

end Sys2Proof.Machine

namespace Sys2Proof

open Machine

/-- Settles O27: each of the four is one skip, so all are the general lemma about skips at their own condition. -/
theorem skipsCompareTheirOperands : Obligations.SkipsCompareTheirOperands := by
  intro s x y nn
  refine ⟨?seImm, ?sneImm, ?seReg, ?sneReg⟩
  case seImm => simpa using completes_of_exec_skipIf (i := .seImm x nn) (s := s) rfl
  case sneImm => simpa using completes_of_exec_skipIf (i := .sneImm x nn) (s := s) rfl
  case seReg => simpa using completes_of_exec_skipIf (i := .seReg x y) (s := s) rfl
  case sneReg => simpa using completes_of_exec_skipIf (i := .sneReg x y) (s := s) rfl

/-- Settles O28: the sum of a 12-bit address and a byte does not wrap, whichever register the quirk chooses. -/
theorem jumpWithOffsetAddsARegister : Obligations.JumpWithOffsetAddsARegister := by
  intro s nnn x _
  have hpc := zext16_add_byteToWord_toNat nnn (s.jumpOffset x)
  have hnnn := nnn.isLt
  have hoffset := (s.jumpOffset x).isLt
  refine ⟨s.advance.setPc (zext16 nnn + byteToWord (s.jumpOffset x)), rfl, hpc, ?_,
    (Unchanged.refl {} s).advance.setPc _⟩
  rw [State.setPc_pc]
  omega

/-- Settles O23, by the two cases of the pop. -/
theorem returnPopsTheStack : Obligations.ReturnPopsTheStack := by
  intro s
  rcases exec_ret_cases s with ⟨hempty, hexec⟩ | ⟨hsome, hexec⟩
  · exact ⟨fun h => absurd hempty (by omega), fun _ => raises_of_exec_raiseBy hexec⟩
  · exact ⟨fun _ => ⟨_, hexec, rfl, rfl, rfl, (unchanged_stackWrites s _ s.stack).setPc _⟩,
      fun h => absurd h (by omega)⟩

/-- Settles O25, by the two cases of the push. -/
theorem callPushesTheReturnAddress : Obligations.CallPushesTheReturnAddress := by
  intro s nnn
  rcases exec_call_cases s nnn with ⟨hfull, hexec⟩ | ⟨hroom, hexec⟩
  · exact ⟨fun h => absurd hfull (by omega), fun _ => encode_call nnn ▸ raises_of_exec_raiseBy hexec⟩
  · refine ⟨fun _ => ⟨_, hexec, ?pushed, ?others, rfl, zext16_toNat nnn, (unchanged_stackWrites s _ _).setPc _⟩,
      fun h => absurd h (by omega)⟩
    case pushed =>
      intro k hk
      simp [hk, BitVec.toNat_add]
    case others =>
      intro k hk
      simp [Ne.symm hk]

end Sys2Proof
end

section
/-! PROOFS. Arithmetic, logic and random (spec/42_alu.md): an instruction that writes one register, and one that writes
V[x] and then VF, each once for every value written. -/

namespace Sys2Proof.Machine

/-! ### Frames of register writes and of a draw -/

/-- A register the frame lists may be written after any other effect. -/
theorem Unchanged.setReg {w : Writes} {s t : State} (h : Unchanged w s t) {x : Reg} (hx : w.regs x = true) (b : Byte) :
    Unchanged w s (t.setReg x b) where
  __ := h
  regs r hr := by
    have hne : r ≠ x := by
      rintro rfl
      simp [hx] at hr
    rw [State.setReg_reg_of_ne t b hne, h.regs r hr]

/-- A frame that lists the model's own counter admits the use of a free value. -/
theorem Unchanged.useFresh {w : Writes} {s t : State} (h : Unchanged w s t) (hw : w.fresh = true) :
    Unchanged w s t.useFresh :=
  { h with fresh := fun hf => absurd (hw.symm.trans hf) (by decide) }

/-! ### Instructions that write one register -/

theorem completes_of_exec_setReg {i : Instr} {s : State} {x : Reg} {b : Byte}
    (h : exec i s = .next (s.advance.setReg x b)) :
    Completes i s fun t => t.reg x = b ∧ pcMoved 2 s t ∧ Unchanged { regs := onlyReg x } s t :=
  ⟨_, h, State.setReg_reg_self _ x b, pcMoved_advance s, (Unchanged.refl _ s).advance.setReg (beq_self_eq_true x) b⟩

/-- The value written, as a number. -/
theorem completes_of_exec_setReg_toNat {i : Instr} {s : State} {x : Reg} {b : Byte} {n : Nat} (hb : b.toNat = n)
    (h : exec i s = .next (s.advance.setReg x b)) :
    Completes i s fun t => (t.reg x).toNat = n ∧ pcMoved 2 s t ∧ Unchanged { regs := onlyReg x } s t := by
  obtain ⟨t, hexec, hreg, hrest⟩ := completes_of_exec_setReg h
  exact ⟨t, hexec, by rw [hreg, hb], hrest⟩

/-- A register write that uses a free value: the model's own counter advances too. -/
theorem completes_of_exec_setReg_useFresh {i : Instr} {s : State} {x : Reg} {b : Byte}
    (h : exec i s = .next (s.advance.setReg x b).useFresh) :
    Completes i s fun t => t.reg x = b ∧ t.fresh = s.fresh + 1 ∧ pcMoved 2 s t ∧
      Unchanged { regs := onlyReg x, fresh := true } s t :=
  ⟨_, h, State.setReg_reg_self _ x b, rfl, pcMoved_advance s,
    ((Unchanged.refl _ s).advance.setReg (beq_self_eq_true x) b).useFresh rfl⟩

/-! ### Instructions that write V[x] and then VF (spec/42_alu.md R158–R162) -/

/-- For x other than F the later write of VF does not touch V[x]. -/
theorem completes_of_exec_setReg_setFlag {i : Instr} {s : State} {x : Reg} {b f : Byte} {m n : Nat} (hx : x ≠ regF)
    (hb : b.toNat = m) (hf : f.toNat = n) (h : exec i s = .next ((s.advance.setReg x b).setReg regF f)) :
    Completes i s fun t => (t.reg x).toNat = m ∧ (t.reg regF).toNat = n ∧ pcMoved 2 s t ∧
      Unchanged { regs := fun r => r == x || r == regF } s t := by
  refine ⟨_, h, ?target, ?flag, pcMoved_advance s, ?frame⟩
  case target => rw [State.setReg_reg_of_ne _ f hx, State.setReg_reg_self, hb]
  case flag => rw [State.setReg_reg_self, hf]
  case frame => exact ((Unchanged.refl _ s).advance.setReg (by simp) b).setReg (by simp) f

theorem completes_of_exec_writeResultFlag {i : Instr} {s : State} {x : Reg} {b f : Byte} {m n : Nat} (hx : x ≠ regF)
    (hb : b.toNat = m) (hf : f.toNat = n) (h : exec i s = .next (s.advance.writeResultFlag x b f)) :
    Completes i s fun t => (t.reg x).toNat = m ∧ (t.reg regF).toNat = n ∧ pcMoved 2 s t ∧
      Unchanged { regs := fun r => r == x || r == regF } s t := by
  rcases s.advance.writeResultFlag_cases x b f with ⟨_, hwrite⟩ | ⟨hxF, _⟩
  · exact completes_of_exec_setReg_setFlag hx hb hf (hwrite ▸ h)
  · exact absurd hxF hx

theorem completes_of_exec_writeShiftFlag {i : Instr} {s : State} {x : Reg} {shift : Byte → Byte} {v f : Byte}
    {m n : Nat} (hx : x ≠ regF) (hb : (shift v).toNat = m) (hf : f.toNat = n)
    (h : exec i s = .next (s.advance.writeShiftFlag x shift v f)) :
    Completes i s fun t => (t.reg x).toNat = m ∧ (t.reg regF).toNat = n ∧ pcMoved 2 s t ∧
      Unchanged { regs := fun r => r == x || r == regF } s t := by
  rcases s.advance.writeShiftFlag_cases x shift v f with ⟨_, hwrite⟩ | ⟨hxF, _⟩
  · exact completes_of_exec_setReg_setFlag hx hb hf (hwrite ▸ h)
  · exact absurd hxF hx

/-! ### Flags as numbers, and masks -/

theorem carry_flag (p q : Byte) : (flagByte (carry p q)).toNat = if p.toNat + q.toNat > 255 then 1 else 0 := by
  simp [flagByte_toNat, carry]

theorem noBorrow_flag (p q : Byte) : (flagByte (noBorrow p q)).toNat = if p.toNat ≥ q.toNat then 1 else 0 := by
  simp [flagByte_toNat, noBorrow]

/-- A masked byte has no bit outside its mask. -/
theorem and_mask_and_not (b mask : Byte) : b &&& mask &&& ~~~mask = 0 := by
  rw [BitVec.and_assoc, BitVec.and_not_self]
  exact BitVec.and_zero

end Sys2Proof.Machine

namespace Sys2Proof

open Machine

/-- Settles O31: for x other than F, V[x] is the wrapped sum and VF, written after it, the carry. -/
theorem addRegistersSetsCarry : Obligations.AddRegistersSetsCarry := fun _ _ _ hx =>
  completes_of_exec_writeResultFlag hx (addBytes_toNat _ _) (carry_flag _ _) rfl

/-- Settles O32: both subtractions are the one difference and its borrow, with the operands exchanged. -/
theorem subtractionsSetNoBorrow : Obligations.SubtractionsSetNoBorrow := by
  intro s x y hx
  constructor
  case left =>
    exact completes_of_exec_writeResultFlag hx (subBytes_toNat _ _) (noBorrow_flag _ _) rfl
  case right =>
    exact completes_of_exec_writeResultFlag hx (subBytes_toNat _ _) (noBorrow_flag _ _) rfl

/-- Settles O33: v is the model's shift operand, under either setting of the quirk. -/
theorem shiftsMoveOneBitIntoFlag : Obligations.ShiftsMoveOneBitIntoFlag := by
  intro s x y v hx hv
  have hoperand : v = (s.shiftOperand x y).toNat := hv
  subst hoperand
  constructor
  case left => exact completes_of_exec_writeShiftFlag hx (shiftRight_toNat _) (lowBit_flag _) rfl
  case right => exact completes_of_exec_writeShiftFlag hx (shiftLeft_toNat _) (highBit_flag _) rfl

/-- Settles O36: the draw is the free value at the counter's old count, and no bit of it outside the mask is written. -/
theorem randomIsMaskedDraw : Obligations.RandomIsMaskedDraw := by
  intro s x nn
  obtain ⟨t, hexec, hreg, hfresh, hrest⟩ := completes_of_exec_setReg_useFresh (i := .rnd x nn) (s := s) rfl
  exact ⟨t, hexec, hreg, by rw [hreg, and_mask_and_not], hfresh, hrest⟩

/-- Settles O29: each of the five is one register write, so all are the general lemma at their own value. -/
theorem registerLoadsAndLogic : Obligations.RegisterLoadsAndLogic := by
  intro s x y nn
  refine ⟨?ldImm, ?ldReg, ?orReg, ?andReg, ?xorReg⟩
  case ldImm => exact completes_of_exec_setReg rfl
  case ldReg => exact completes_of_exec_setReg rfl
  case orReg => exact completes_of_exec_setReg_toNat (BitVec.toNat_or (s.reg x) (s.reg y)) rfl
  case andReg => exact completes_of_exec_setReg_toNat (BitVec.toNat_and (s.reg x) (s.reg y)) rfl
  case xorReg => exact completes_of_exec_setReg_toNat (BitVec.toNat_xor (s.reg x) (s.reg y)) rfl

/-- Settles O30: the wrapped sum is the only write. -/
theorem addImmediateWrapsWithoutFlag : Obligations.AddImmediateWrapsWithoutFlag := fun s x nn =>
  completes_of_exec_setReg_toNat (addBytes_toNat (s.reg x) nn) rfl

end Sys2Proof
end

section
/-! PROOFS. The index register and memory transfer (spec/43_index_memory.md): writes of I, the two outcomes of a checked
range, and what a range of bytes read or stored leaves alone. -/

namespace Sys2Proof.Machine

/-! ### Frames of writes of I, of memory and of V[0]..V[x] -/

/-- A frame that lists I admits a write of it after any other effect. -/
theorem Unchanged.setI {w : Writes} {s t : State} (h : Unchanged w s t) (hw : w.index = true) (i : Word) :
    Unchanged w s (t.setI i) :=
  { h with index := fun hi => absurd (hw.symm.trans hi) (by decide) }

/-- Addresses the frame lists may be stored to after any other effect. -/
theorem Unchanged.storeBytes {w : Writes} {s t : State} (h : Unchanged w s t) {a : Nat} {bs : List Byte}
    (hmem : Memory.wf t.mem = true) (hfit : a + bs.length ≤ memSize)
    (hw : ∀ b, a ≤ b ∧ b < a + bs.length → w.bytes b = true) : Unchanged w s (t.storeBytes a bs) where
  __ := h
  bytes b hb := by
    have hout : b < a ∨ a + bs.length ≤ b := by
      by_contra hin
      have := hw b (by omega)
      simp [hb] at this
    exact (Memory.read_writeBytes_outside hmem hfit hout).trans (h.bytes b hb)

/-- A block load leaves every field but V. -/
theorem Unchanged.loadRegs {w : Writes} {s t : State} (h : Unchanged w s t) (base k : Nat)
    (hw : ∀ r : Reg, r.val < k → w.regs r = true) : Unchanged w s (t.loadRegs base k) := by
  obtain ⟨hfields, hregs⟩ := t.loadRegs_spec base k
  have hframe : Unchanged w s { t.loadRegs base k with v := t.v } := hfields.symm ▸ h
  refine { hframe with regs := fun r hr => ?_ }
  have hr' : ¬r.val < k := fun hlt => by simp [hw r hlt] at hr
  rw [hregs, if_neg hr', h.regs r hr]

/-- A block load leaves PC. -/
theorem State.loadRegs_pc (s : State) (base k : Nat) : (s.loadRegs base k).pc = s.pc :=
  (congrArg State.pc (s.loadRegs_spec base k).1 :)

/-- Byte k of a stored range, at its address. -/
theorem State.storeBytes_byteAt_add {s : State} {a : Nat} {bs : List Byte} (hmem : Memory.wf s.mem = true)
    (hfit : a + bs.length ≤ memSize) {k : Nat} (hk : k < bs.length) :
    (s.storeBytes a bs).byteAt (a + k) = bs[k] := by
  rw [State.byteAt, State.storeBytes_mem, Memory.read_writeBytes hmem hfit, dif_pos (by omega)]
  simp only [Nat.add_sub_cancel_left]

/-! ### Operands as numbers -/

/-- No glyph address wraps: the highest is 0x050 + 5 · 255. -/
theorem glyphAddress_toNat (b : Byte) : (glyphAddress b).toNat = 0x050 + 5 * b.toNat := by
  have hb := b.isLt
  rw [glyphAddress, fontBase, BitVec.toNat_ofNat]
  omega

@[simp] theorem decimalDigits_length (b : Byte) : (decimalDigits b).length = 3 := rfl

/-- No digit is narrowed: each is below 256. -/
theorem decimalDigits_toNat (b : Byte) :
    (decimalDigits b)[0].toNat = b.toNat / 100 ∧ (decimalDigits b)[1].toNat = b.toNat / 10 % 10 ∧
    (decimalDigits b)[2].toNat = b.toNat % 10 := by
  have hb := b.isLt
  simp only [decimalDigits, List.getElem_cons_zero, List.getElem_cons_succ, BitVec.toNat_ofNat]
  omega

/-- Where the whole block lies inside memory, I does not wrap. -/
theorem State.indexAfterBlock_toNat {s : State} {x : Reg} (h : s.indexBase + x.val ≤ 0xFFF) :
    (s.indexAfterBlock x).toNat = if s.cfg.memoryIncrementIndex then s.i.toNat + x.val + 1 else s.i.toNat := by
  unfold State.indexBase at h
  unfold State.indexAfterBlock
  split
  · rw [BitVec.toNat_add, BitVec.toNat_ofNat]
    omega
  · rfl

theorem wordXNN_eq_ofNat (op : BitVec 4) (x : Reg) (nn : Byte) :
    wordXNN op x nn = BitVec.ofNat 16 (4096 * op.toNat + nn.toNat + 0x100 * x.val) := by
  apply BitVec.eq_of_toNat_eq
  rw [wordXNN_toNat, BitVec.toNat_ofNat]
  omega

/-! ### Instructions that write I alone -/

theorem completes_of_exec_setI {i : Instr} {s : State} {w : Word} {n : Nat} (hw : w.toNat = n)
    (h : exec i s = .next (s.advance.setI w)) :
    Completes i s fun t => t.i.toNat = n ∧ pcMoved 2 s t ∧ Unchanged { index := true } s t :=
  ⟨_, h, hw, pcMoved_advance s, (Unchanged.refl _ s).advance.setI rfl w⟩

/-! ### The memory instructions: the range inside memory, or a raise with its lowest address outside (R204–R206) -/

/-- The range check of at least one byte, by its last address. -/
theorem rangeFault_succ_cases (base n : Nat) :
    (base + n ≤ 0xFFF ∧ rangeFault base (n + 1) = none) ∨
    (base + n > 0xFFF ∧ rangeFault base (n + 1) = some (max base 0x1000)) := by
  rcases rangeFault_cases base (n + 1) with ⟨hcheck, hin⟩ | ⟨hcheck, _, hout⟩
  · exact .inl ⟨by omega, hcheck⟩
  · exact .inr ⟨by omega, hcheck⟩

theorem exec_ldB_cases (s : State) (x : Reg) :
    (s.indexBase + 2 ≤ 0xFFF ∧
      exec (.ldB x) s = .next (s.advance.storeBytes s.indexBase (decimalDigits (s.reg x)))) ∨
    (s.indexBase + 2 > 0xFFF ∧
      exec (.ldB x) s = raiseBy (.ldB x) .writeOutOfBounds (some (max s.indexBase 0x1000)) s) := by
  rcases rangeFault_succ_cases s.indexBase 2 with ⟨hin, hcheck⟩ | ⟨hout, hcheck⟩
  · exact .inl ⟨hin, by simp only [exec, execLdB, hcheck]⟩
  · exact .inr ⟨hout, by simp only [exec, execLdB, hcheck]⟩

theorem exec_ldMemVx_cases (s : State) (x : Reg) :
    (s.indexBase + x.val ≤ 0xFFF ∧ exec (.ldMemVx x) s =
      .next ((s.advance.storeBytes s.indexBase (s.regsUpTo x)).setI (s.indexAfterBlock x))) ∨
    (s.indexBase + x.val > 0xFFF ∧
      exec (.ldMemVx x) s = raiseBy (.ldMemVx x) .writeOutOfBounds (some (max s.indexBase 0x1000)) s) := by
  rcases rangeFault_succ_cases s.indexBase x.val with ⟨hin, hcheck⟩ | ⟨hout, hcheck⟩
  · exact .inl ⟨hin, by simp only [exec, execLdMemVx, hcheck]⟩
  · exact .inr ⟨hout, by simp only [exec, execLdMemVx, hcheck]⟩

theorem exec_ldVxMem_cases (s : State) (x : Reg) :
    (s.indexBase + x.val ≤ 0xFFF ∧ exec (.ldVxMem x) s =
      .next ((s.advance.loadRegs s.indexBase (x.val + 1)).setI (s.indexAfterBlock x))) ∨
    (s.indexBase + x.val > 0xFFF ∧
      exec (.ldVxMem x) s = raiseBy (.ldVxMem x) .readOutOfBounds (some (max s.indexBase 0x1000)) s) := by
  rcases rangeFault_succ_cases s.indexBase x.val with ⟨hin, hcheck⟩ | ⟨hout, hcheck⟩
  · exact .inl ⟨hin, by simp only [exec, execLdVxMem, hcheck]⟩
  · exact .inr ⟨hout, by simp only [exec, execLdVxMem, hcheck]⟩

end Sys2Proof.Machine

namespace Sys2Proof

open Machine

/-- Settles O39, by the two cases of the range check: inside memory, the three digits are one stored range. -/
theorem digitsAreStored : Obligations.DigitsAreStored := by
  intro s x hmem
  rcases exec_ldB_cases s x with ⟨hin, hexec⟩ | ⟨hout, hexec⟩
  · have hfit : s.indexBase + (decimalDigits (s.reg x)).length ≤ memSize := by
      rw [decimalDigits_length, memSize]
      omega
    have hstored (k : Nat) (hk : k < (decimalDigits (s.reg x)).length) :=
      State.storeBytes_byteAt_add (s := s.advance) hmem hfit hk
    obtain ⟨hundreds, tens, ones⟩ := decimalDigits_toNat (s.reg x)
    refine ⟨fun _ => ⟨_, hexec, ?hundreds, ?tens, ?ones, pcMoved_advance s, ?frame⟩, fun h => absurd h (by omega)⟩
    case hundreds => exact (congrArg BitVec.toNat (hstored 0 (by simp))).trans hundreds
    case tens => exact (congrArg BitVec.toNat (hstored 1 (by simp))).trans tens
    case ones => exact (congrArg BitVec.toNat (hstored 2 (by simp))).trans ones
    case frame =>
      exact (Unchanged.refl _ s).advance.storeBytes hmem hfit fun _ hb => decide_eq_true hb
  · exact ⟨fun h => absurd h (by omega), fun _ => wordXNN_eq_ofNat 0xF x 0x33 ▸ raises_of_exec_raiseBy hexec⟩

/-- Settles O40, by the two cases of the range check: inside memory, byte k of the stored range is V[k], and the later
write of I touches no byte. -/
theorem blockStoreWritesRegisters : Obligations.BlockStoreWritesRegisters := by
  intro s x hmem
  rcases exec_ldMemVx_cases s x with ⟨hin, hexec⟩ | ⟨hout, hexec⟩
  · have hlen : (s.regsUpTo x).length = x.val + 1 := s.regsUpTo_length x
    have hfit : s.indexBase + (s.regsUpTo x).length ≤ memSize := by
      rw [hlen, memSize]
      omega
    refine ⟨fun _ => ⟨_, hexec, ?bytes, State.indexAfterBlock_toNat hin, pcMoved_advance s, ?frame⟩,
      fun h => absurd h (by omega)⟩
    case bytes =>
      intro k hk
      have hlt : k.val < (s.regsUpTo x).length := hlen ▸ Nat.lt_succ_of_le hk
      rw [State.setI_byteAt, State.storeBytes_byteAt_add (s := s.advance) hmem hfit hlt, State.regsUpTo_getElem]
    case frame =>
      refine ((Unchanged.refl _ s).advance.storeBytes hmem hfit fun b hb => ?_).setI rfl _
      exact decide_eq_true (hlen ▸ hb)
  · exact ⟨fun h => absurd h (by omega), fun _ => wordXNN_eq_ofNat 0xF x 0x55 ▸ raises_of_exec_raiseBy hexec⟩

/-- Settles O41, by the two cases of the range check: inside memory, the block load's own law says what V holds, and
neither it nor the later write of I touches memory. -/
theorem blockLoadReadsRegisters : Obligations.BlockLoadReadsRegisters := by
  intro s x
  rcases exec_ldVxMem_cases s x with ⟨hin, hexec⟩ | ⟨hout, hexec⟩
  · refine ⟨fun _ => ⟨_, hexec, ?regs, State.indexAfterBlock_toNat hin, ?pc, ?frame⟩, fun h => absurd h (by omega)⟩
    case regs =>
      intro k hk
      have hlt : k.val < x.val + 1 := Nat.lt_succ_of_le hk
      rw [State.setI_reg, (s.advance.loadRegs_spec _ _).2, if_pos hlt, State.advance_byteAt]
    case pc =>
      rw [pcMoved, State.setI_pc, State.loadRegs_pc]
      exact pcMoved_advance s
    case frame =>
      refine ((Unchanged.refl _ s).advance.loadRegs _ _ fun r hr => ?_).setI rfl _
      exact decide_eq_true (Nat.le_of_lt_succ hr)
  · exact ⟨fun h => absurd h (by omega), fun _ => wordXNN_eq_ofNat 0xF x 0x65 ▸ raises_of_exec_raiseBy hexec⟩

/-- Settles O37: neither value wraps in 16 bits. -/
theorem indexLoads : Obligations.IndexLoads := fun s nnn x =>
  ⟨completes_of_exec_setI (zext16_toNat nnn) rfl, completes_of_exec_setI (glyphAddress_toNat (s.reg x)) rfl⟩

end Sys2Proof
end

section
/-! PROOFS. The display (spec/44_display.md): the frame of a clear, and a toggle as an XOR of the screen, which undoes
itself. -/

namespace Sys2Proof.Machine

/-- A frame that lists the screen admits a clear of it after any other effect. -/
theorem Unchanged.clearScreen {w : Writes} {s t : State} (h : Unchanged w s t) (hw : w.screen = true) :
    Unchanged w s t.clearScreen :=
  { h with screen := fun hs => absurd (hw.symm.trans hs) (by decide) }

/-- A screen is its pixels. -/
theorem Framebuffer.ext_pixel {fb fb' : Framebuffer} (h : ∀ px py, fb.pixel px py = fb'.pixel px py) : fb = fb' := by
  ext px hx py hy
  simpa only [Framebuffer.pixel, dif_pos (And.intro hx hy)] using h px py

theorem State.toggle_pixel_self (s : State) {px py : Nat} (h : px < 64 ∧ py < 32) :
    (s.toggle px py).2.pixel px py = !s.pixel px py := by
  simp [s.toggle_pixel h]

theorem State.toggle_pixel_of_ne (s : State) {px py qx qy : Nat} (h : px < 64 ∧ py < 32) (hq : (qx, qy) ≠ (px, py)) :
    (s.toggle px py).2.pixel qx qy = s.pixel qx qy := by
  have hne : ¬(qx = px ∧ qy = py) := fun e => hq (Prod.ext e.1 e.2)
  rw [s.toggle_pixel h, decide_eq_false hne, Bool.xor_false]

/-- The same pixel is flipped twice, and no other pixel at all. -/
theorem State.toggle_toggle_fb (s : State) {px py : Nat} (h : px < 64 ∧ py < 32) :
    ((s.toggle px py).2.toggle px py).2.fb = s.fb := by
  refine Framebuffer.ext_pixel fun qx qy => ?_
  change ((s.toggle px py).2.toggle px py).2.pixel qx qy = s.pixel qx qy
  rw [State.toggle_pixel _ h, State.toggle_pixel _ h, Bool.xor_assoc, Bool.xor_self, Bool.xor_false]

end Sys2Proof.Machine

namespace Sys2Proof

open Machine

/-- Settles O46: the second toggle is the first one's laws at the toggled state, and an XOR undone by itself. -/
theorem toggleTwiceRestoresThePixel : Obligations.ToggleTwiceRestoresThePixel := by
  intro s px py hx hy
  have hin : px < 64 ∧ py < 32 := ⟨hx, hy⟩
  refine ⟨s.toggle_fst px py, s.toggle_pixel_self hin, fun _ _ => s.toggle_pixel_of_ne hin, s.toggle_frame px py,
    s.toggle_dirty hin, ?secondAnswer, s.toggle_toggle_fb hin, State.toggle_dirty _ hin⟩
  case secondAnswer => rw [State.toggle_fst, s.toggle_pixel_self hin]

/-- Settles O45: the clear follows the advance of PC, and neither looks at the screen as it was. -/
theorem clearScreenBlanks : Obligations.ClearScreenBlanks := fun s =>
  ⟨s.advance.clearScreen, rfl, s.advance.clearScreen_pixel, s.advance.clearScreen_dirty, pcMoved_advance s,
    (Unchanged.refl _ s).advance.clearScreen rfl⟩

/-- Settles O47: one coordinate outside puts the point outside the grid. -/
theorem toggleOutsideTheGridDoesNothing : Obligations.ToggleOutsideTheGridDoesNothing := fun s px py hout =>
  s.toggle_outside (by omega)

end Sys2Proof
end

section
/-! PROOFS. The keypad and the timers (spec/45_keypad_timers.md): frames of writes of DT, ST and LATCH, and `Fx0A` by
its four situations. -/

namespace Sys2Proof.Machine

/-! ### Frames of writes of DT, ST and LATCH -/

/-- A frame that lists DT admits a write of it after any other effect. -/
theorem Unchanged.setDt {w : Writes} {s t : State} (h : Unchanged w s t) (hw : w.delay = true) (b : Byte) :
    Unchanged w s (t.setDt b) :=
  { h with delay := fun hd => absurd (hw.symm.trans hd) (by decide) }

/-- A frame that lists ST admits a write of it after any other effect. -/
theorem Unchanged.setSt {w : Writes} {s t : State} (h : Unchanged w s t) (hw : w.sound = true) (b : Byte) :
    Unchanged w s (t.setSt b) :=
  { h with sound := fun hs => absurd (hw.symm.trans hs) (by decide) }

/-- A frame that lists LATCH admits a write of it after any other effect. -/
theorem Unchanged.setLatch {w : Writes} {s t : State} (h : Unchanged w s t) (hw : w.latch = true) (l : Option Key) :
    Unchanged w s (t.setLatch l) :=
  { h with latch := fun hl => absurd (hw.symm.trans hl) (by decide) }

/-- The sound plays exactly while ST is not 0 (spec/45_keypad_timers.md R272). -/
theorem isSoundPlaying_iff {s : State} : isSoundPlaying s = true ↔ s.st ≠ 0 :=
  decide_eq_true_iff.trans (BitVec.pos_iff_ne_zero s.st)

/-! ### The four situations of `Fx0A` (spec/45_keypad_timers.md R275) -/

theorem exec_ldVxK_of_noKeyDown {s : State} (x : Reg) (hl : s.latch = none) (hup : ∀ k, s.keyDown k = false) :
    exec (.ldVxK x) s = .next s := by
  simp only [exec, execLdVxK, hl, lowestKeyDown_none.mpr hup]

theorem exec_ldVxK_of_lowestKeyDown {s : State} (x : Reg) {k : Key} (hl : s.latch = none) (hk : s.keyDown k = true)
    (hlow : ∀ j, j < k → s.keyDown j = false) : exec (.ldVxK x) s = .next (s.setLatch (some k)) := by
  simp only [exec, execLdVxK, hl, lowestKeyDown_some.mpr ⟨hk, hlow⟩]

theorem exec_ldVxK_of_latchedDown {s : State} (x : Reg) {k : Key} (hl : s.latch = some k) (hk : s.keyDown k = true) :
    exec (.ldVxK x) s = .next s := by
  simp only [exec, execLdVxK, hl, if_pos hk]

theorem exec_ldVxK_of_latchedUp {s : State} (x : Reg) {k : Key} (hl : s.latch = some k) (hk : s.keyDown k = false) :
    exec (.ldVxK x) s = .next ((s.advance.setReg x (byteOfKey k)).setLatch none) := by
  simp only [exec, execLdVxK, hl, hk, Bool.false_eq_true, if_false]

end Sys2Proof.Machine

namespace Sys2Proof

open Machine

/-- Settles O51, by the four situations: each holding one leaves PC where it is, and the release alone advances it. -/
theorem waitForKeyProtocol : Obligations.WaitForKeyProtocol := by
  intro s x
  refine ⟨exec_ldVxK_of_noKeyDown x, ?latches, fun _ => exec_ldVxK_of_latchedDown x, ?completes⟩
  case latches =>
    intro k hl hk hlow
    exact ⟨_, exec_ldVxK_of_lowestKeyDown x hl hk hlow, rfl, rfl, (Unchanged.refl _ s).setLatch rfl _⟩
  case completes =>
    intro k hl hk
    refine ⟨_, exec_ldVxK_of_latchedUp x hl hk, ?index, rfl, pcMoved_advance s, ?frame⟩
    case index => rw [State.setLatch_reg, State.setReg_reg_self, byteOfKey_toNat]
    case frame => exact ((Unchanged.refl _ s).advance.setReg (beq_self_eq_true x) _).setLatch rfl _

/-- Settles O50: the read is one register write, and the other two write one timer each. -/
theorem timerCopies : Obligations.TimerCopies := by
  intro s x
  refine ⟨completes_of_exec_setReg rfl, ?delay, ?sound⟩
  case delay => exact ⟨_, rfl, rfl, pcMoved_advance s, (Unchanged.refl _ s).advance.setDt rfl _⟩
  case sound =>
    exact ⟨_, rfl, rfl, isSoundPlaying_iff, pcMoved_advance s, (Unchanged.refl _ s).advance.setSt rfl _⟩

end Sys2Proof
end

section
/-! PROOFS. The decoder against the encoder and against the opcode table (spec/30_encoding.md R90–R98). -/

namespace Sys2Proof

/-! ### A word from its fixed fields and its operands -/

section
variable {w : Word} {op : BitVec 4}

theorem wordNNN_of_fieldOp (hop : fieldOp w = op) : wordNNN op (fieldNNN w) = w := hop ▸ wordNNN_fields w

theorem wordXNN_of_fieldOp (hop : fieldOp w = op) : wordXNN op (fieldX w) (fieldNN w) = w := hop ▸ wordXNN_fields w

theorem wordXNN_of_fields {nn : Byte} (hop : fieldOp w = op) (hnn : fieldNN w = nn) : wordXNN op (fieldX w) nn = w :=
  hnn ▸ wordXNN_of_fieldOp hop

theorem wordXYN_of_fieldOp (hop : fieldOp w = op) : wordXYN op (fieldX w) (fieldY w) (fieldN w) = w :=
  hop ▸ wordXYN_fields w

theorem wordXYN_of_fields {n : BitVec 4} (hop : fieldOp w = op) (hn : fieldN w = n) :
    wordXYN op (fieldX w) (fieldY w) n = w :=
  hn ▸ wordXYN_of_fieldOp hop

end

/-! ### What a legal word tells of its instruction -/

theorem encode_of_decodeClass8 {w : Word} {i : Instr} (hop : fieldOp w = 0x8#4) (h : decodeClass8 w = .ok i) :
    i.wellFormed = true ∧ encode i = w := by
  unfold decodeClass8 at h
  split at h <;> cases h
  all_goals
    rename_i hn
    exact ⟨rfl, wordXYN_of_fields hop hn⟩

theorem encode_of_decodeClassE {w : Word} {i : Instr} (hop : fieldOp w = 0xE#4) (h : decodeClassE w = .ok i) :
    i.wellFormed = true ∧ encode i = w := by
  unfold decodeClassE at h
  split at h <;> cases h
  all_goals
    rename_i hnn
    exact ⟨rfl, wordXNN_of_fields hop hnn⟩

theorem encode_of_decodeClassF {w : Word} {i : Instr} (hop : fieldOp w = 0xF#4) (h : decodeClassF w = .ok i) :
    i.wellFormed = true ∧ encode i = w := by
  unfold decodeClassF at h
  split at h <;> cases h
  all_goals
    rename_i hnn
    exact ⟨rfl, wordXNN_of_fields hop hnn⟩

/-- Strict decoding: the instruction's fixed bits and operands are all of the word (spec/30_encoding.md R98). -/
theorem encode_of_decode {w : Word} {i : Instr} (h : decode w = .ok i) : i.wellFormed = true ∧ encode i = w := by
  unfold decode at h
  split at h
  case h_1 =>
    split at h
    · cases h; exact ⟨rfl, Eq.symm ‹_›⟩
    · split at h <;> cases h
      exact ⟨rfl, Eq.symm ‹_›⟩
  case h_2 hop | h_3 hop | h_11 hop => cases h; exact ⟨rfl, wordNNN_of_fieldOp hop⟩
  case h_4 hop | h_5 hop | h_7 hop | h_8 hop | h_13 hop => cases h; exact ⟨rfl, wordXNN_of_fieldOp hop⟩
  case h_6 hop | h_10 hop =>
    split at h <;> cases h
    exact ⟨rfl, wordXYN_of_fields hop ‹_›⟩
  case h_9 hop => exact encode_of_decodeClass8 hop h
  case h_12 hop => cases h; exact ⟨decide_eq_true (highNibble_fieldNNN w).symm, wordNNN_of_fieldOp hop⟩
  case h_14 hop => cases h; exact ⟨rfl, wordXYN_of_fieldOp hop⟩
  case h_15 hop => exact encode_of_decodeClassE hop h
  case h_16 hop => exact encode_of_decodeClassF hop h
  case h_17 => cases h

/-! ### The words no class admits -/

theorem decodeClass8_eq_invalid_iff (w : Word) :
    decodeClass8 w = .error (.invalid w) ↔ 8 ≤ (fieldN w).toNat ∧ (fieldN w).toNat ≠ 0xE := by
  have hn := (fieldN w).isLt
  unfold decodeClass8
  split <;> simp_all [← BitVec.toNat_inj]
  omega

theorem decodeClassE_eq_invalid_iff (w : Word) :
    decodeClassE w = .error (.invalid w) ↔ (fieldNN w).toNat ≠ 0x9E ∧ (fieldNN w).toNat ≠ 0xA1 := by
  unfold decodeClassE
  split <;> simp_all [← BitVec.toNat_inj]

theorem decodeClassF_eq_invalid_iff (w : Word) :
    decodeClassF w = .error (.invalid w) ↔
      (fieldNN w).toNat ∉ [0x07, 0x0A, 0x15, 0x18, 0x1E, 0x29, 0x33, 0x55, 0x65] := by
  unfold decodeClassF
  split <;> simp_all [← BitVec.toNat_inj]

/-! ### The rows of the opcode table (spec/30_encoding.md R93) -/

theorem Laws.MatchesRow.all : ∀ i : Instr, Laws.MatchesRow.Statement i
  | .cls => cls | .ret => ret | .jp nnn => jp nnn | .call nnn => call nnn
  | .seImm x nn => seImm x nn | .sneImm x nn => sneImm x nn | .seReg x y => seReg x y | .sneReg x y => sneReg x y
  | .ldImm x nn => ldImm x nn | .addImm x nn => addImm x nn | .ldReg x y => ldReg x y
  | .orReg x y => orReg x y | .andReg x y => andReg x y | .xorReg x y => xorReg x y
  | .addReg x y => addReg x y | .subReg x y => subReg x y | .subnReg x y => subnReg x y
  | .shrReg x y => shrReg x y | .shlReg x y => shlReg x y
  | .ldI nnn => ldI nnn | .jpV0 nnn x => jpV0 nnn x | .rnd x nn => rnd x nn | .drw x y n => drw x y n
  | .skp x => skp x | .sknp x => sknp x | .ldVxDt x => ldVxDt x | .ldVxK x => ldVxK x
  | .ldDtVx x => ldDtVx x | .ldStVx x => ldStVx x | .addI x => addI x | .ldF x => ldF x
  | .ldB x => ldB x | .ldMemVx x => ldMemVx x | .ldVxMem x => ldVxMem x

theorem rowOf_mem_opcodeTable (i : Instr) : rowOf i ∈ opcodeTable := by
  cases i <;> simp [rowOf, opcodeTable, opcodeRowsPlain, opcodeRowsNibble, opcodeRowsByte]

theorem rowOf_matches_of_decode {w : Word} {i : Instr} (h : decode w = .ok i) : (rowOf i).matches w = true :=
  (encode_of_decode h).2 ▸ Laws.MatchesRow.all i

theorem fieldOp_and (a b : Word) : fieldOp (a &&& b) = fieldOp a &&& fieldOp b := BitVec.extractLsb'_and
theorem fieldN_and (a b : Word) : fieldN (a &&& b) = fieldN a &&& fieldN b := BitVec.extractLsb'_and
theorem fieldNN_and (a b : Word) : fieldNN (a &&& b) = fieldNN a &&& fieldNN b := BitVec.extractLsb'_and

section
variable {w : Word} {r : OpcodeRow} (h : r.matches w = true)
include h

theorem OpcodeRow.and_mask_of_matches : w &&& r.mask = r.pat := by
  simpa [OpcodeRow.matches] using h

theorem eq_pat_of_matches (hmask : r.mask = BitVec.allOnes 16) : w = r.pat := by
  rw [← OpcodeRow.and_mask_of_matches h, hmask, BitVec.and_allOnes]

theorem fieldOp_of_matches (hmask : fieldOp r.mask = 0xF#4) : fieldOp w = fieldOp r.pat := by
  rw [← OpcodeRow.and_mask_of_matches h, fieldOp_and, hmask, and_ones4]

theorem fieldN_of_matches (hmask : fieldN r.mask = 0xF#4) : fieldN w = fieldN r.pat := by
  rw [← OpcodeRow.and_mask_of_matches h, fieldN_and, hmask, and_ones4]

theorem fieldNN_of_matches (hmask : fieldNN r.mask = 0xFF#8) : fieldNN w = fieldNN r.pat := by
  rw [← OpcodeRow.and_mask_of_matches h, fieldNN_and, hmask, and_ones8]

end

/-- A word of a row decodes to an instruction of that row: the row fixes exactly what the decoder dispatches on. -/
theorem decode_of_matches {w : Word} {r : OpcodeRow} (hr : r ∈ opcodeTable) (h : r.matches w = true) :
    ∃ i, decode w = .ok i ∧ rowOf i = r := by
  have hop := fieldOp_of_matches h ((by decide : ∀ q ∈ opcodeTable, fieldOp q.mask = 0xF#4) r hr)
  rw [opcodeTable, List.append_assoc, List.mem_append, List.mem_append] at hr
  rcases hr with hplain | hnibble | hbyte
  case inl =>
    fin_cases hplain
    · obtain rfl := eq_pat_of_matches h rfl
      exact ⟨.cls, rfl, rfl⟩
    · obtain rfl := eq_pat_of_matches h rfl
      exact ⟨.ret, rfl, rfl⟩
    all_goals simp +ground [decode, rowOf, hop]
  case inr.inl =>
    have hn := fieldN_of_matches h ((by decide : ∀ q ∈ opcodeRowsNibble, fieldN q.mask = 0xF#4) r hnibble)
    fin_cases hnibble <;> simp +ground [decode, decodeClass8, rowOf, hop, hn]
  case inr.inr =>
    have hnn := fieldNN_of_matches h ((by decide : ∀ q ∈ opcodeRowsByte, fieldNN q.mask = 0xFF#8) r hbyte)
    fin_cases hbyte <;> simp +ground [decode, decodeClassE, decodeClassF, rowOf, hop, hnn]

/-- Two different rows disagree on a bit that both fix. -/
theorem opcodeTable_disjoint : ∀ r ∈ opcodeTable, ∀ q ∈ opcodeTable, r.pat &&& q.mask = q.pat &&& r.mask → r = q := by
  decide

/-! ### The statements -/

/-- Settles O1: each field of the encoded word is the operand placed there, and the dispatch reads the fixed fields. -/
theorem decodeOfEncodeIsTheInstruction : Obligations.DecodeOfEncodeIsTheInstruction := by
  intro i hi
  cases i with
  | jpV0 nnn x =>
    have hx : highNibble nnn = x := (of_decide_eq_true hi).symm
    simp [encode, decode, hx]
  | cls => rfl
  | ret => rfl
  | _ => simp [encode, decode, decodeClass8, decodeClassE, decodeClassF]

/-- Settles O2, by the decoder's own dispatch: each class gives back the word of its fields. -/
theorem encodeOfDecodeIsTheWord : Obligations.EncodeOfDecodeIsTheWord := fun _ _ => encode_of_decode

/-- Settles O3: an instruction's row holds its encoding, a row fixes what the decoder dispatches on, and two rows that
share a word agree wherever both fix a bit. -/
theorem decodeAgreesWithOpcodeTable : Obligations.DecodeAgreesWithOpcodeTable := by
  refine ⟨fun w i h => ⟨rowOf_mem_opcodeTable i, rowOf_matches_of_decode h⟩, fun w r => decode_of_matches, ?noOverlap⟩
  case noOverlap =>
    intro w r q hr hq hrw hqw
    refine opcodeTable_disjoint r hr q hq ?_
    rw [← OpcodeRow.and_mask_of_matches hrw, ← OpcodeRow.and_mask_of_matches hqw, BitVec.and_assoc, BitVec.and_assoc,
      BitVec.and_comm r.mask]

/-- Settles O4, class by class: the decoder dispatches on the fields that the quotients and remainders are. -/
theorem illegalWordsByClass : Obligations.IllegalWordsByClass := by
  intro w
  rw [← fieldOp_toNat, ← fieldN_toNat, ← fieldNN_toNat]
  unfold decode
  split
  case h_1 hop =>
    simp only [hop]
    split
    · simp_all [← BitVec.toNat_inj]
    · split <;> simp_all [← BitVec.toNat_inj]
  case h_6 hop | h_10 hop => split <;> simp_all [← BitVec.toNat_inj]
  case h_9 hop => simp [hop, decodeClass8_eq_invalid_iff]
  case h_15 hop => simp only [hop, decodeClassE_eq_invalid_iff]; simp
  case h_16 hop => simp only [hop, decodeClassF_eq_invalid_iff]; simp
  case h_17 =>
    have hop := (fieldOp w).isLt
    simp_all [← BitVec.toNat_inj]
    omega
  all_goals
    rename_i hop
    simp [hop]

/-- Settles O5: the decoder computes on each written-out word. -/
theorem writtenOutWordsDecode : Obligations.WrittenOutWordsDecode := by
  unfold Obligations.WrittenOutWordsDecode
  decide

end Sys2Proof
end

section
/-! PROOFS. What one instruction can do, said once: it raises one of its faults on that fault's condition, or it
completes, writes only what the lists of writers in spec/10_state.md give it, and keeps the invariant. -/

namespace Sys2Proof.Machine

/-! ### Reads outside a range of writes, in any list of cells -/

theorem Memory.read_write_of_ne {a a' : Nat} (h : a' ≠ a) (b : Byte) : ∀ m : List Host.Cell,
    Memory.read (Memory.write m a b) a' = Memory.read m a'
  | [] => by
    unfold Memory.write
    split
    · rfl
    · simp only [Memory.read, if_neg h.symm]
  | (k, c) :: rest => by
    have ih := Memory.read_write_of_ne h b rest
    unfold Memory.write
    split_ifs with hlt _ heq
    · rfl
    · rw [Memory.read, if_neg h.symm]
    · rw [Memory.read, if_neg (heq ▸ h.symm)]
    · rw [Memory.read, Memory.read, if_neg h.symm, if_neg (heq ▸ h.symm)]
    · rw [Memory.read, Memory.read, ih]

theorem Memory.read_writeBytes_of_outside {a' : Nat} : ∀ (bs : List Byte) (m : List Host.Cell) (a : Nat),
    a' < a ∨ a + bs.length ≤ a' → Memory.read (Memory.writeBytes m a bs) a' = Memory.read m a'
  | [], _, _, _ => rfl
  | b :: bs, m, a, h => by
    rw [List.length_cons] at h
    rw [Memory.writeBytes, Memory.read_writeBytes_of_outside bs _ _ (by omega), Memory.read_write_of_ne (by omega)]

/-! ### Writers and faults -/

/-- What an instruction may write in a state, by the writers that spec/10_state.md lists for each element; PC and HALT
apart, as in every frame. The counter is listed for every instruction that uses a free value on some operands. -/
def State.writesOf (s : State) (i : Instr) : Writes where
  regs := writesRegister i
  index := match i with
    | .ldI _ | .addI _ | .ldF _ | .ldMemVx _ | .ldVxMem _ => true
    | _ => false
  stack := match i with
    | .ret | .call _ => true
    | _ => false
  delay := match i with
    | .ldDtVx _ => true
    | _ => false
  sound := match i with
    | .ldStVx _ => true
    | _ => false
  bytes := match i with
    | .ldB _ => addressRange s.indexBase 3
    | .ldMemVx x => addressRange s.indexBase (x.val + 1)
    | _ => fun _ => false
  screen := match i with
    | .cls | .drw _ _ _ => true
    | _ => false
  latch := match i with
    | .ldVxK _ => true
    | _ => false
  fresh := match i with
    | .addReg _ _ | .subReg _ _ | .subnReg _ _ | .shrReg _ _ | .shlReg _ _ | .rnd _ _ | .drw _ _ _ => true
    | _ => false

/-- The fault an instruction raises, and the condition it raises it on (spec/60_exceptions.md R321). -/
inductive FaultsOn (s : State) : Instr → FaultCause → Prop
  | call {nnn : BitVec 12} (full : s.sp.val = 16) : FaultsOn s (.call nnn) .stackOverflow
  | ret (empty : s.sp.val = 0) : FaultsOn s .ret .stackUnderflow
  | drw {x y : Reg} {n : BitVec 4} (rows : 0 < n.toNat) (out : s.indexBase + (n.toNat - 1) > 0xFFF) :
    FaultsOn s (.drw x y n) .readOutOfBounds
  | ldVxMem {x : Reg} (out : s.indexBase + x.val > 0xFFF) : FaultsOn s (.ldVxMem x) .readOutOfBounds
  | ldB {x : Reg} (out : s.indexBase + 2 > 0xFFF) : FaultsOn s (.ldB x) .writeOutOfBounds
  | ldMemVx {x : Reg} (out : s.indexBase + x.val > 0xFFF) : FaultsOn s (.ldMemVx x) .writeOutOfBounds
  | skp {x : Reg} (noKey : (s.reg x).toNat > 15) : FaultsOn s (.skp x) .keyIndexOutOfRange
  | sknp {x : Reg} (noKey : (s.reg x).toNat > 15) : FaultsOn s (.sknp x) .keyIndexOutOfRange

/-- What an instruction that completes has done to the state: no write outside its own, and the invariant kept. -/
structure Effect (i : Instr) (s t : State) : Prop where
  frame : Unchanged (s.writesOf i) s t
  inv : s.Inv → s.pc.toNat ≤ 0xFFE → t.Inv

/-- The two things an instruction can do. -/
def RaisesOrCompletes (i : Instr) (s : State) : Prop :=
  (∃ cause addr, FaultsOn s i cause ∧ exec i s = raiseBy i cause addr s) ∨ ∃ t, exec i s = .next t ∧ Effect i s t

/-! ### Effects of the instructions that leave the stack -/

/-- The invariant reads PC, the stack and memory alone. -/
theorem State.Inv.of_stack_eq {s t : State} (h : s.Inv) (hstack : t.sp = s.sp ∧ t.stack = s.stack)
    (hmem : Memory.wf t.mem = true) (hpc : t.pc.toNat ≤ 0x10FE) : t.Inv where
  pc_le := hpc
  mem_wf := hmem
  returns k hk hlt := by
    rw [hstack.1] at hlt
    simpa only [hstack.2] using h.returns k hk hlt

theorem Effect.of_frame {i : Instr} {s t : State} (frame : Unchanged (s.writesOf i) s t)
    (hstack : (s.writesOf i).stack = false) (hmem : Memory.wf s.mem = true → Memory.wf t.mem = true)
    (hpc : s.pc.toNat ≤ 0xFFE → t.pc.toNat ≤ 0x10FE) : Effect i s t where
  frame := frame
  inv hinv hle := hinv.of_stack_eq (frame.stack hstack) (hmem hinv.mem_wf) (hpc hle)

/-- From an address that can be fetched, one advance or two do not wrap (spec/30_encoding.md R105). -/
theorem State.skipIf_advance_pc_le {s : State} (c : Bool) (h : s.pc.toNat ≤ 0xFFE) :
    (s.advance.skipIf c).pc.toNat ≤ 0x10FE := by
  cases c <;> simp [State.skipIf_pc, BitVec.toNat_add] <;> omega

theorem State.advance_pc_le {s : State} (h : s.pc.toNat ≤ 0xFFE) : s.advance.pc.toNat ≤ 0x10FE :=
  State.skipIf_advance_pc_le false h

/-- The effect of an instruction that goes on to the next one and stores nothing. -/
theorem Effect.of_advance {i : Instr} {s t : State} (frame : Unchanged (s.writesOf i) s t)
    (hstack : (s.writesOf i).stack = false) (hmem : t.mem = s.mem) (hpc : t.pc = s.advance.pc) : Effect i s t :=
  .of_frame frame hstack (hmem ▸ id) fun h => hpc ▸ State.advance_pc_le h

section
variable {i : Instr} {s : State} (hstack : (s.writesOf i).stack = false)
include hstack

theorem raisesOrCompletes_of_skipIf {c : Bool} (h : exec i s = .next (s.advance.skipIf c)) : RaisesOrCompletes i s :=
  .inr ⟨_, h, .of_frame ((Unchanged.refl _ s).advance.skipIf c) hstack (by simp) (State.skipIf_advance_pc_le c)⟩

theorem raisesOrCompletes_of_setReg {x : Reg} {b : Byte} (hx : writesRegister i x = true)
    (h : exec i s = .next (s.advance.setReg x b)) : RaisesOrCompletes i s :=
  .inr ⟨_, h, .of_advance ((Unchanged.refl _ s).advance.setReg hx b) hstack rfl rfl⟩

theorem raisesOrCompletes_of_setReg_useFresh {x : Reg} {b : Byte} (hx : writesRegister i x = true)
    (hfresh : (s.writesOf i).fresh = true) (h : exec i s = .next (s.advance.setReg x b).useFresh) :
    RaisesOrCompletes i s :=
  .inr ⟨_, h, .of_advance (((Unchanged.refl _ s).advance.setReg hx b).useFresh hfresh) hstack rfl rfl⟩

theorem raisesOrCompletes_of_setReg_setFlag {x : Reg} {b f : Byte} (hx : writesRegister i x = true)
    (hF : writesRegister i regF = true) (h : exec i s = .next ((s.advance.setReg x b).setReg regF f)) :
    RaisesOrCompletes i s :=
  .inr ⟨_, h, .of_advance (((Unchanged.refl _ s).advance.setReg hx b).setReg hF f) hstack rfl rfl⟩

theorem raisesOrCompletes_of_writeResultFlag {x : Reg} {b f : Byte} (hx : writesRegister i x = true)
    (hF : writesRegister i regF = true) (hfresh : (s.writesOf i).fresh = true)
    (h : exec i s = .next (s.advance.writeResultFlag x b f)) : RaisesOrCompletes i s := by
  rcases s.advance.writeResultFlag_cases x b f with ⟨_, hwrite⟩ | ⟨_, _, _, hwrite⟩
  · exact raisesOrCompletes_of_setReg_setFlag hstack hx hF (hwrite ▸ h)
  · exact raisesOrCompletes_of_setReg_useFresh hstack hF hfresh (hwrite ▸ h)

theorem raisesOrCompletes_of_writeShiftFlag {x : Reg} {shift : Byte → Byte} {v f : Byte}
    (hx : writesRegister i x = true) (hF : writesRegister i regF = true) (hfresh : (s.writesOf i).fresh = true)
    (h : exec i s = .next (s.advance.writeShiftFlag x shift v f)) : RaisesOrCompletes i s := by
  rcases s.advance.writeShiftFlag_cases x shift v f with ⟨_, hwrite⟩ | ⟨_, _, _, hwrite⟩
  · exact raisesOrCompletes_of_setReg_setFlag hstack hx hF (hwrite ▸ h)
  · exact raisesOrCompletes_of_setReg_useFresh hstack hF hfresh (hwrite ▸ h)

theorem raisesOrCompletes_of_setI {w : Word} (hindex : (s.writesOf i).index = true)
    (h : exec i s = .next (s.advance.setI w)) : RaisesOrCompletes i s :=
  .inr ⟨_, h, .of_advance ((Unchanged.refl _ s).advance.setI hindex w) hstack rfl rfl⟩

theorem raisesOrCompletes_of_setPc {w : Word} (hw : w.toNat ≤ 0x10FE) (h : exec i s = .next (s.advance.setPc w)) :
    RaisesOrCompletes i s :=
  .inr ⟨_, h, .of_frame ((Unchanged.refl _ s).advance.setPc w) hstack id fun _ => hw⟩

end

/-! ### The stack instructions -/

theorem raisesOrCompletes_ret (s : State) : RaisesOrCompletes .ret s := by
  rcases exec_ret_cases s with ⟨hempty, hexec⟩ | ⟨hsome, hexec⟩
  · exact .inl ⟨_, _, .ret hempty, hexec⟩
  · refine .inr ⟨_, hexec, (unchanged_stackWrites s _ s.stack).setPc _, fun hinv _ => ⟨?pc, ?returns, hinv.mem_wf⟩⟩
    case pc =>
      have hpop := hinv.returns (s.sp.val - 1) (by have := s.sp.isLt; omega) (by omega)
      rw [State.setPc_pc]
      omega
    case returns =>
      intro k hk hlt
      have hlt' : k < s.sp.val - 1 := hlt
      exact hinv.returns k hk (by omega)

theorem raisesOrCompletes_call (s : State) (nnn : BitVec 12) : RaisesOrCompletes (.call nnn) s := by
  rcases exec_call_cases s nnn with ⟨hfull, hexec⟩ | ⟨hroom, hexec⟩
  · exact .inl ⟨_, _, .call hfull, hexec⟩
  · refine .inr ⟨_, hexec, (unchanged_stackWrites s _ _).setPc _, fun hinv hpc => ⟨?pc, ?returns, hinv.mem_wf⟩⟩
    case pc =>
      have hnnn := nnn.isLt
      rw [State.setPc_pc, zext16_toNat]
      omega
    case returns =>
      intro k hk hlt
      have hle : k < s.sp.val + 1 := hlt
      rw [State.setPc_stack, Vector.getElem_set]
      split
      · rw [BitVec.toNat_add]
        simp
        omega
      · exact hinv.returns k hk (by omega)

/-! ### The memory instructions -/

/-- Addresses the frame lists may be stored to, whatever the form of memory. -/
theorem Unchanged.storeRange {w : Writes} {s t : State} (h : Unchanged w s t) {a : Nat} {bs : List Byte}
    (hw : w.bytes = addressRange a bs.length) : Unchanged w s (t.storeBytes a bs) where
  __ := h
  bytes b hb := by
    have hout : ¬(a ≤ b ∧ b < a + bs.length) := of_decide_eq_false (by rwa [hw] at hb)
    exact (Memory.read_writeBytes_of_outside bs t.mem a (by omega)).trans (h.bytes b hb)

theorem State.storeBytes_mem_wf {s : State} {a : Nat} {bs : List Byte} (hfit : a + bs.length ≤ memSize)
    (hmem : Memory.wf s.mem = true) : Memory.wf (s.storeBytes a bs).mem = true :=
  Memory.wf_writeBytes hmem hfit

theorem raisesOrCompletes_ldB (s : State) (x : Reg) : RaisesOrCompletes (.ldB x) s := by
  rcases exec_ldB_cases s x with ⟨hin, hexec⟩ | ⟨hout, hexec⟩
  · refine .inr ⟨_, hexec, .of_frame ((Unchanged.refl _ s).advance.storeRange rfl) rfl (fun hmem => ?_)
      State.advance_pc_le⟩
    refine State.storeBytes_mem_wf ?_ hmem
    rw [decimalDigits_length, memSize]
    omega
  · exact .inl ⟨_, _, .ldB hout, hexec⟩

theorem raisesOrCompletes_ldMemVx (s : State) (x : Reg) : RaisesOrCompletes (.ldMemVx x) s := by
  have hlen := s.regsUpTo_length x
  rcases exec_ldMemVx_cases s x with ⟨hin, hexec⟩ | ⟨hout, hexec⟩
  · refine .inr ⟨_, hexec, .of_frame (((Unchanged.refl _ s).advance.storeRange ?_).setI rfl _) rfl (fun hmem => ?_)
      State.advance_pc_le⟩
    · rw [hlen]; rfl
    · refine State.storeBytes_mem_wf ?_ hmem
      rw [hlen, memSize]
      omega
  · exact .inl ⟨_, _, .ldMemVx hout, hexec⟩

theorem State.loadRegs_mem (s : State) (base k : Nat) : (s.loadRegs base k).mem = s.mem :=
  (congrArg State.mem (s.loadRegs_spec base k).1 :)

theorem raisesOrCompletes_ldVxMem (s : State) (x : Reg) : RaisesOrCompletes (.ldVxMem x) s := by
  rcases exec_ldVxMem_cases s x with ⟨hin, hexec⟩ | ⟨hout, hexec⟩
  · refine .inr ⟨_, hexec, .of_advance (((Unchanged.refl _ s).advance.loadRegs _ _ fun r hr => ?_).setI rfl _) rfl
      (State.loadRegs_mem ..) (State.loadRegs_pc ..)⟩
    exact decide_eq_true (Nat.le_of_lt_succ hr)
  · exact .inl ⟨_, _, .ldVxMem hout, hexec⟩

/-! ### Drawing -/

/-- The state a sprite's rows are drawn on: PC advanced, the free value used and VF reset (spec/44_display.md R250). -/
def State.drawStart (s : State) (x y : Reg) : State := (s.advance.useFreshIfFlagOperand x y).setReg regF 0

/-- The state after the rows, with VF set where a toggled pixel was on. -/
def State.setCollision (r : State × Bool) : State := if r.2 then r.1.setReg regF 1 else r.1

/-- Everything Dxyn can do: toggle the sprite's bits inside the grid, or raise with the lowest row address outside. -/
theorem exec_drw_cases (s : State) (x y : Reg) (n : BitVec 4) :
    ((n.toNat = 0 ∨ s.indexBase + (n.toNat - 1) ≤ 0xFFF) ∧ ∃ r,
      Drawn (spriteBits s.byteAt (s.spriteColumn x) (s.spriteRow y) s.indexBase 0 n.toNat) (s.drawStart x y) false r ∧
      exec (.drw x y n) s = .next (State.setCollision r)) ∨
    (0 < n.toNat ∧ s.indexBase + (n.toNat - 1) > 0xFFF ∧
      exec (.drw x y n) s = raiseBy (.drw x y n) .readOutOfBounds (some (max s.indexBase 0x1000)) s) := by
  rcases rangeFault_cases s.indexBase n.toNat with ⟨hcheck, hin⟩ | ⟨hcheck, hrows, hout⟩
  · refine .inl ⟨hin, _, ?drawn, by simp only [exec, execDrw, hcheck]; rfl⟩
    case drawn =>
      have hbytes : (s.drawStart x y).byteAt = s.byteAt := by funext a; simp [State.drawStart]
      rw [List.range_eq_range', ← hbytes]
      exact drawRows_drawn _ _ _ _ _ _ _
  · exact .inr ⟨hrows, hout, by simp only [exec, execDrw, hcheck]⟩

/-- A drawing leaves every field but FB and DIRTY. -/
theorem Unchanged.drawn {w : Writes} {s t : State} (h : Unchanged w s t) (hw : w.screen = true)
    {bits : Nat → Nat → Bool} {hit : Bool} {r : State × Bool} (d : Drawn bits t hit r) : Unchanged w s r.1 := by
  have hframe : Unchanged w s { r.1 with fb := t.fb, dirty := t.dirty } := d.frame.symm ▸ h
  exact { hframe with screen := fun hs => absurd (hw.symm.trans hs) (by decide) }

theorem Unchanged.setCollision {w : Writes} {s : State} {r : State × Bool} (h : Unchanged w s r.1)
    (hw : w.regs regF = true) : Unchanged w s (State.setCollision r) := by
  unfold State.setCollision
  split
  · exact h.setReg hw 1
  · exact h

@[simp] theorem State.setCollision_pc (r : State × Bool) : (State.setCollision r).pc = r.1.pc := by
  unfold State.setCollision; split <;> rfl

@[simp] theorem State.setCollision_mem (r : State × Bool) : (State.setCollision r).mem = r.1.mem := by
  unfold State.setCollision; split <;> rfl

@[simp] theorem State.setCollision_dirty (r : State × Bool) : (State.setCollision r).dirty = r.1.dirty := by
  unfold State.setCollision; split <;> rfl

@[simp] theorem State.setCollision_pixel (r : State × Bool) (px py : Nat) :
    (State.setCollision r).pixel px py = r.1.pixel px py := by
  unfold State.setCollision; split <;> rfl

theorem Unchanged.useFreshIfFlagOperand {w : Writes} {s t : State} (h : Unchanged w s t) {x y : Reg}
    (hw : x = regF ∨ y = regF → w.fresh = true) : Unchanged w s (t.useFreshIfFlagOperand x y) := by
  unfold State.useFreshIfFlagOperand
  split
  · exact h.useFresh (hw ‹_›)
  · exact h

/-- The frame of a drawing, for every frame that lists VF, the screen and the counter where it is used. -/
theorem unchanged_drw {w : Writes} {s : State} {x y : Reg} {bits : Nat → Nat → Bool} {hit : Bool} {r : State × Bool}
    (d : Drawn bits (s.drawStart x y) hit r) (hF : w.regs regF = true) (hscreen : w.screen = true)
    (hfresh : x = regF ∨ y = regF → w.fresh = true) : Unchanged w s (State.setCollision r) :=
  ((((Unchanged.refl w s).advance.useFreshIfFlagOperand hfresh).setReg hF 0).drawn hscreen d).setCollision hF

theorem Drawn.pc_eq {s : State} {bits : Nat → Nat → Bool} {hit : Bool} {r : State × Bool}
    (d : Drawn bits s hit r) : r.1.pc = s.pc :=
  (congrArg State.pc d.frame :)

theorem Drawn.mem_eq {s : State} {bits : Nat → Nat → Bool} {hit : Bool} {r : State × Bool}
    (d : Drawn bits s hit r) : r.1.mem = s.mem :=
  (congrArg State.mem d.frame :)

theorem raisesOrCompletes_drw (s : State) (x y : Reg) (n : BitVec 4) : RaisesOrCompletes (.drw x y n) s := by
  rcases exec_drw_cases s x y n with ⟨_, r, hdrawn, hexec⟩ | ⟨hrows, hout, hexec⟩
  · refine .inr ⟨_, hexec, .of_advance (unchanged_drw hdrawn rfl rfl fun _ => rfl) rfl ?_ ?_⟩
    · rw [State.setCollision_mem, hdrawn.mem_eq]; simp [State.drawStart]
    · rw [State.setCollision_pc, hdrawn.pc_eq]; simp [State.drawStart]
  · exact .inl ⟨_, _, .drw hrows hout, hexec⟩

/-! ### The keypad instructions -/

/-- Everything Ex9E and ExA1 can do: skip by the key V[x] names, or raise where it names none. -/
theorem exec_keySkip_cases (s : State) (x : Reg) :
    ((s.reg x).toNat > 15 ∧ exec (.skp x) s = raiseBy (.skp x) .keyIndexOutOfRange none s ∧
      exec (.sknp x) s = raiseBy (.sknp x) .keyIndexOutOfRange none s) ∨
    ∃ k : Key, (s.reg x).toNat = k.val ∧ exec (.skp x) s = .next (s.advance.skipIf (s.keyDown k)) ∧
      exec (.sknp x) s = .next (s.advance.skipIf (!s.keyDown k)) := by
  rcases keyOfByte_cases (s.reg x) with ⟨hkey, hbig⟩ | ⟨k, hkey, hval⟩
  · exact .inl ⟨hbig, by simp only [exec, execSkp, hkey], by simp only [exec, execSknp, hkey]⟩
  · exact .inr ⟨k, hval, by simp only [exec, execSkp, hkey], by simp only [exec, execSknp, hkey]⟩

/-- Everything Fx0A can do: hold, latch a key that is down and hold, or complete with the latched key, now up. -/
theorem exec_ldVxK_cases (s : State) (x : Reg) :
    exec (.ldVxK x) s = .next s ∨
    (∃ k, s.keyDown k = true ∧ exec (.ldVxK x) s = .next (s.setLatch (some k))) ∨
    ∃ k, exec (.ldVxK x) s = .next ((s.advance.setReg x (byteOfKey k)).setLatch none) := by
  cases hlatch : s.latch with
  | none =>
    cases hlow : s.lowestKeyDown with
    | none => exact .inl (exec_ldVxK_of_noKeyDown x hlatch (lowestKeyDown_none.mp hlow))
    | some k =>
      obtain ⟨hk, hlower⟩ := lowestKeyDown_some.mp hlow
      exact .inr (.inl ⟨k, hk, exec_ldVxK_of_lowestKeyDown x hlatch hk hlower⟩)
  | some k =>
    cases hk : s.keyDown k with
    | true => exact .inl (exec_ldVxK_of_latchedDown x hlatch hk)
    | false => exact .inr (.inr ⟨k, exec_ldVxK_of_latchedUp x hlatch hk⟩)

theorem raisesOrCompletes_ldVxK (s : State) (x : Reg) : RaisesOrCompletes (.ldVxK x) s := by
  have hold {t : State} (frame : Unchanged (s.writesOf (.ldVxK x)) s t) (hmem : t.mem = s.mem) (hpc : t.pc = s.pc) :
      Effect (.ldVxK x) s t :=
    .of_frame frame rfl (hmem ▸ id) fun h => by rw [hpc]; omega
  rcases exec_ldVxK_cases s x with hexec | ⟨k, _, hexec⟩ | ⟨k, hexec⟩
  · exact .inr ⟨_, hexec, hold (Unchanged.refl _ s) rfl rfl⟩
  · exact .inr ⟨_, hexec, hold ((Unchanged.refl _ s).setLatch rfl _) rfl rfl⟩
  · exact .inr ⟨_, hexec,
      .of_advance (((Unchanged.refl _ s).advance.setReg (beq_self_eq_true x) _).setLatch rfl _) rfl rfl rfl⟩

/-! ### Every instruction -/

/-- Everything an instruction can do, said once. -/
theorem exec_cases (i : Instr) (s : State) : RaisesOrCompletes i s := by
  cases i with
  | cls => exact .inr ⟨_, rfl, .of_advance ((Unchanged.refl _ s).advance.clearScreen rfl) rfl rfl rfl⟩
  | ret => exact raisesOrCompletes_ret s
  | jp nnn =>
    have hnnn := nnn.isLt
    exact raisesOrCompletes_of_setPc rfl (by rw [zext16_toNat]; omega) rfl
  | call nnn => exact raisesOrCompletes_call s nnn
  | jpV0 nnn x =>
    have hnnn := nnn.isLt
    have hoffset := (s.jumpOffset x).isLt
    exact raisesOrCompletes_of_setPc rfl (by rw [zext16_add_byteToWord_toNat]; omega) rfl
  | seImm | sneImm | seReg | sneReg => exact raisesOrCompletes_of_skipIf rfl rfl
  | ldImm x | addImm x | ldReg x | orReg x | andReg x | xorReg x | ldVxDt x =>
    exact raisesOrCompletes_of_setReg rfl (beq_self_eq_true x) rfl
  | addReg x | subReg x | subnReg x =>
    exact raisesOrCompletes_of_writeResultFlag rfl (by simp [writesRegister]) (by simp [writesRegister]) rfl rfl
  | shrReg x | shlReg x =>
    exact raisesOrCompletes_of_writeShiftFlag rfl (by simp [writesRegister]) (by simp [writesRegister]) rfl rfl
  | rnd x => exact raisesOrCompletes_of_setReg_useFresh rfl (beq_self_eq_true x) rfl rfl
  | ldI | addI | ldF => exact raisesOrCompletes_of_setI rfl rfl rfl
  | drw x y n => exact raisesOrCompletes_drw s x y n
  | skp x =>
    rcases exec_keySkip_cases s x with ⟨hbig, hexec, _⟩ | ⟨k, _, hexec, _⟩
    · exact .inl ⟨_, _, .skp hbig, hexec⟩
    · exact raisesOrCompletes_of_skipIf rfl hexec
  | sknp x =>
    rcases exec_keySkip_cases s x with ⟨hbig, _, hexec⟩ | ⟨k, _, _, hexec⟩
    · exact .inl ⟨_, _, .sknp hbig, hexec⟩
    · exact raisesOrCompletes_of_skipIf rfl hexec
  | ldVxK x => exact raisesOrCompletes_ldVxK s x
  | ldDtVx x => exact .inr ⟨_, rfl, .of_advance ((Unchanged.refl _ s).advance.setDt rfl _) rfl rfl rfl⟩
  | ldStVx x => exact .inr ⟨_, rfl, .of_advance ((Unchanged.refl _ s).advance.setSt rfl _) rfl rfl rfl⟩
  | ldB x => exact raisesOrCompletes_ldB s x
  | ldMemVx x => exact raisesOrCompletes_ldMemVx s x
  | ldVxMem x => exact raisesOrCompletes_ldVxMem s x

end Sys2Proof.Machine
end

section
/-! PROOFS. What every instruction and every step keeps: each statement is read off the two things an instruction can
do (`exec_cases`) and the three things a step can do (`step_outcomes`). -/

namespace Sys2Proof.Machine

/-! ### Faults and frames of an executed instruction -/

/-- The state after an executed instruction: one of its faults recorded, or its effect. -/
theorem exec_next_cases {i : Instr} {s t : State} (h : exec i s = .next t) :
    (∃ cause addr, FaultsOn s i cause ∧
      t = { s with halt := some { cause := cause, pc := s.pc, word := some (encode i), addr := addr } }) ∨
    Effect i s t := by
  rcases exec_cases i s with ⟨cause, addr, hfault, hexec⟩ | ⟨u, hexec, heffect⟩
  · rw [hexec] at h
    cases h
    exact .inl ⟨cause, addr, hfault, rfl⟩
  · rw [hexec] at h
    cases h
    exact .inr heffect

/-- HALT apart, an instruction writes only what its writers' list gives it: a raise writes nothing but HALT. -/
theorem unchanged_of_exec {i : Instr} {s t : State} (h : exec i s = .next t) :
    Unchanged (s.writesOf i) s { t with halt := s.halt } := by
  rcases exec_next_cases h with ⟨_, _, _, rfl⟩ | heffect
  · exact Unchanged.refl _ s
  · exact { heffect.frame with halt := rfl }

/-! ### Steps -/

/-- The three things a step can do: nothing on a halted core, set HALT and nothing else, or run an instruction that
completes from an address that can be fetched. -/
theorem step_outcomes (s : State) :
    (s.halt ≠ none ∧ step s = .next s) ∨
    (s.halt = none ∧ ∃ r : FaultRecord, r.pc = s.pc ∧ step s = .next { s with halt := some r }) ∨
    (s.halt = none ∧ s.pc.toNat ≤ 0xFFE ∧ ∃ i t, step s = .next t ∧ Effect i s t) := by
  rcases step_cases s with hhalted | ⟨hrun, _, hstep⟩ | ⟨hrun, hpc, w, _, ⟨_, hstep⟩ | ⟨i, _, hstep⟩⟩
  · exact .inl hhalted
  · exact .inr (.inl ⟨hrun, _, rfl, hstep⟩)
  · exact .inr (.inl ⟨hrun, _, rfl, hstep⟩)
  · rcases exec_cases i s with ⟨_, _, _, hexec⟩ | ⟨t, hexec, heffect⟩
    · exact .inr (.inl ⟨hrun, _, rfl, hstep.trans hexec⟩)
    · exact .inr (.inr ⟨hrun, by omega, i, t, hstep.trans hexec, heffect⟩)

theorem exists_step_next (s : State) : ∃ t, step s = .next t := by
  rcases step_outcomes s with ⟨_, hstep⟩ | ⟨_, _, _, hstep⟩ | ⟨_, _, _, _, hstep, _⟩
  · exact ⟨_, hstep⟩
  · exact ⟨_, hstep⟩
  · exact ⟨_, hstep⟩

theorem step_keeps_inv {s t : State} (hinv : s.Inv) (h : step s = .next t) : t.Inv := by
  rcases step_outcomes s with ⟨_, hstep⟩ | ⟨_, r, _, hstep⟩ | ⟨_, hpc, i, u, hstep, heffect⟩
  all_goals
    rw [hstep] at h
    cases h
  · exact hinv
  · exact hinv.of_stack_eq ⟨rfl, rfl⟩ hinv.mem_wf hinv.pc_le
  · exact heffect.inv hinv hpc

theorem step_cfg {s t : State} (h : step s = .next t) : t.cfg = s.cfg := by
  rcases step_outcomes s with ⟨_, hstep⟩ | ⟨_, r, _, hstep⟩ | ⟨_, hpc, i, u, hstep, heffect⟩
  all_goals
    rw [hstep] at h
    cases h
  · rfl
  · rfl
  · exact heffect.frame.cfg

theorem step_of_halted {s : State} (h : s.halt ≠ none) : step s = .next s := by
  rcases step_cases s with ⟨_, hstep⟩ | ⟨hrun, _⟩ | ⟨hrun, _⟩
  · exact hstep
  · exact absurd hrun h
  · exact absurd hrun h

/-! ### Frames (spec/60_exceptions.md R300) -/

theorem core_run_of_halted {s : State} (h : s.halt ≠ none) : ∀ n : Nat, Host.Core.run Sys2Proof.core n s = .next s
  | 0 => rfl
  | n + 1 => (core_run_succ Sys2Proof.core n (step_of_halted h)).trans (core_run_of_halted h n)

theorem runSlots_succ {s t : State} (n : Nat) (h : step s = .next t) :
    runSlots (n + 1) s = if t.halt.isSome then .next t else runSlots n t := by
  rw [runSlots, h]

/-- The slots of a frame are exactly that many steps: a halted core stays as it is, so ending early changes nothing. -/
theorem runSlots_eq_run : ∀ (n : Nat) (s : State), runSlots n s = Host.Core.run Sys2Proof.core n s
  | 0, _ => rfl
  | n + 1, s => by
    obtain ⟨t, hstep⟩ := exists_step_next s
    rw [core_run_succ Sys2Proof.core n hstep, runSlots_succ n hstep]
    by_cases hhalt : t.halt = none
    · rw [if_neg (by simp [hhalt])]
      exact runSlots_eq_run n t
    · rw [if_pos (Option.isSome_iff_ne_none.mpr hhalt)]
      exact (core_run_of_halted hhalt n).symm

theorem runFrame_of_halted {s : State} (h : s.halt ≠ none) : runFrame s = .next s :=
  if_pos (Option.isSome_iff_ne_none.mpr h)

theorem runFrame_of_running {s : State} (h : s.halt = none) :
    runFrame s = Host.Core.run Sys2Proof.core s.cfg.instructionsPerFrame s.tickTimers := by
  rw [← runSlots_eq_run, runFrame, h]
  rfl

/-- A run of steps has a next state, and what every step keeps, it keeps. -/
theorem exists_run_next {P : State → Prop} (hstep : ∀ s t, P s → step s = .next t → P t) : ∀ (n : Nat) (s : State),
    P s → ∃ t, Host.Core.run Sys2Proof.core n s = .next t ∧ P t
  | 0, s, hs => ⟨s, rfl, hs⟩
  | n + 1, s, hs => by
    obtain ⟨u, hu⟩ := exists_step_next s
    obtain ⟨t, hrun, ht⟩ := exists_run_next hstep n u (hstep s u hs hu)
    exact ⟨t, (core_run_succ Sys2Proof.core n hu).trans hrun, ht⟩

/-- A frame has a next state, and what the tick and every step keep, it keeps. -/
theorem exists_runFrame_next {P : State → Prop} (hstep : ∀ s t, P s → step s = .next t → P t)
    (htick : ∀ s, P s → P s.tickTimers) {s : State} (hs : P s) : ∃ t, runFrame s = .next t ∧ P t := by
  by_cases hhalt : s.halt = none
  · rw [runFrame_of_running hhalt]
    exact exists_run_next hstep _ _ (htick s hs)
  · exact ⟨s, runFrame_of_halted hhalt, hs⟩

end Sys2Proof.Machine

namespace Sys2Proof

open Machine

/-! ### Faults -/

/-- Settles O10: every step has a next state, so every frame has one. -/
theorem stepAlwaysHasANextState : Obligations.StepAlwaysHasANextState := by
  intro s
  obtain ⟨t, hframe, _⟩ := exists_runFrame_next (P := fun _ => True) (fun _ _ _ _ => trivial) (fun _ _ => trivial)
    (s := s) trivial
  exact ⟨exists_step_next s, t, hframe⟩

/-- Settles O11: of the three things a step can do, only the raise sets HALT, and it does nothing else. -/
theorem faultsArePrecise : Obligations.FaultsArePrecise := by
  intro s t r hnext hrun hhalt
  rcases step_outcomes s with ⟨hhalted, _⟩ | ⟨_, q, hpc, hstep⟩ | ⟨_, _, i, u, hstep, heffect⟩
  · exact absurd hrun hhalted
  · rw [hstep] at hnext
    cases hnext
    cases hhalt
    exact ⟨rfl, hpc⟩
  · rw [hstep] at hnext
    cases hnext
    rw [heffect.frame.halt, hrun] at hhalt
    cases hhalt

/-- Settles O12, by the faults of `FaultsOn`: an instruction that completes leaves HALT. -/
theorem onlyTheListedCausesFault : Obligations.OnlyTheListedCausesFault := by
  intro i s t r hexec hrun hhalt
  rcases exec_next_cases hexec with ⟨cause, addr, hfault, rfl⟩ | heffect
  · cases hhalt
    cases hfault with
    | call full => exact .inl ⟨⟨_, rfl⟩, full, rfl⟩
    | ret empty => exact .inr (.inl ⟨rfl, empty, rfl⟩)
    | drw rows out => exact .inr (.inr (.inl ⟨⟨_, _, _, rfl, rows, out⟩, rfl⟩))
    | ldVxMem out => exact .inr (.inr (.inr (.inl ⟨⟨_, rfl, out⟩, rfl⟩)))
    | ldB out => exact .inr (.inr (.inr (.inr (.inl ⟨⟨_, rfl⟩, out, rfl⟩))))
    | ldMemVx out => exact .inr (.inr (.inr (.inr (.inr (.inl ⟨⟨_, rfl, out⟩, rfl⟩)))))
    | skp noKey => exact .inr (.inr (.inr (.inr (.inr (.inr ⟨⟨_, .inl rfl, noKey⟩, rfl⟩)))))
    | sknp noKey => exact .inr (.inr (.inr (.inr (.inr (.inr ⟨⟨_, .inr rfl, noKey⟩, rfl⟩)))))
  · rw [heffect.frame.halt, hrun] at hhalt
    cases hhalt

/-! ### The invariant -/

/-- Settles O13: what a step can do keeps each part of the invariant (`exec_cases` has the bounds, per instruction). -/
theorem stepKeepsTheInvariant : Obligations.StepKeepsTheInvariant := fun _ _ => step_keeps_inv

/-- Settles O14: PC is 0x200, no return address is in use and memory lists nothing. -/
theorem resetMeetsTheInvariant : Obligations.ResetMeetsTheInvariant where
  pc_le := by decide
  returns k _ hlt := absurd hlt (Nat.not_lt_zero k)
  mem_wf := rfl

/-! ### Who writes what -/

/-- Settles O18: the registers outside the list are in every instruction's frame. -/
theorem onlyListedInstructionsWriteRegisters : Obligations.OnlyListedInstructionsWriteRegisters := by
  intro i s t r hexec hne
  by_contra hlist
  exact hne ((unchanged_of_exec hexec).regs r (Bool.eq_false_iff.mpr hlist))

/-- Settles O19: the stack is in the frame of every other instruction, RET keeps the entries and CALL places one. -/
theorem onlyCallAndReturnTouchTheStack : Obligations.OnlyCallAndReturnTouchTheStack := by
  intro i s t hexec
  have hframe := (unchanged_of_exec hexec).stack
  cases i with
  | ret =>
    refine ⟨fun _ => .inl rfl, fun k hk => absurd ?_ hk⟩
    rcases exec_ret_cases s with ⟨_, hret⟩ | ⟨_, hret⟩
    all_goals
      rw [hret] at hexec
      cases hexec
      rfl
  | call nnn =>
    refine ⟨fun _ => .inr ⟨nnn, rfl⟩, fun k hk => ⟨⟨nnn, rfl⟩, ?_⟩⟩
    by_contra hne
    rcases exec_call_cases s nnn with ⟨_, hcall⟩ | ⟨_, hcall⟩
    all_goals
      rw [hcall] at hexec
      cases hexec
    · exact hk rfl
    · exact hk (by simp [Ne.symm hne])
  | _ =>
    obtain ⟨hsp, hstack⟩ := hframe rfl
    exact ⟨fun h => absurd hsp h, fun k hk => absurd (congrArg (·[k]) hstack) hk⟩

/-- Settles O20: every byte outside the two ranges is in every instruction's frame, whatever the form of memory. -/
theorem onlyDigitsAndBlockStoreWriteMemory : Obligations.OnlyDigitsAndBlockStoreWriteMemory := by
  intro i s t a _ hexec hne
  have hrange : (s.writesOf i).bytes a = true := by
    by_contra hout
    exact hne ((unchanged_of_exec hexec).bytes a (Bool.eq_false_iff.mpr hout))
  cases i with
  | ldB x => exact .inl ⟨x, rfl, of_decide_eq_true hrange⟩
  | ldMemVx x => exact .inr ⟨x, rfl, of_decide_eq_true hrange⟩
  | _ => cases hrange

/-- Settles O21: the screen is in the frame of every other instruction, a clear sets DIRTY and a drawing only adds. -/
theorem onlyClearAndDrawChangeTheScreen : Obligations.OnlyClearAndDrawChangeTheScreen := by
  intro i s t hexec
  have hframe := (unchanged_of_exec hexec).screen
  cases i with
  | cls =>
    cases hexec
    exact ⟨fun _ => .inl rfl, fun _ => rfl⟩
  | drw x y n =>
    refine ⟨fun _ => .inr ⟨x, y, n, rfl⟩, fun hdirty => ?_⟩
    rcases exec_drw_cases s x y n with ⟨_, r, hdrawn, hdrw⟩ | ⟨_, _, hdrw⟩
    all_goals
      rw [hdrw] at hexec
      cases hexec
    · rw [State.setCollision_dirty]
      exact hdrawn.dirty.mpr (.inl (by simpa [State.drawStart] using hdirty))
    · exact hdirty
  | _ =>
    obtain ⟨hfb, hdirty⟩ := hframe rfl
    exact ⟨fun h => absurd h (not_or.mpr ⟨not_not.mpr hfb, not_not.mpr hdirty⟩), fun h => hdirty.trans h⟩

/-- Settles O22: the keys are in every frame, and LATCH, DT and ST in all but one; Fx0A latches a key that is down. -/
theorem keypadAndTimerWriters : Obligations.KeypadAndTimerWriters := by
  intro i s t hexec
  have hframe := unchanged_of_exec hexec
  refine ⟨hframe.keys, ?latch, ?delay, ?sound⟩
  case latch =>
    intro hne
    cases i with
    | ldVxK x =>
      refine ⟨⟨x, rfl⟩, fun k hk => ?_⟩
      rcases exec_ldVxK_cases s x with hwait | ⟨j, hj, hwait⟩ | ⟨j, hwait⟩
      all_goals
        rw [hwait] at hexec
        cases hexec
      · exact absurd rfl hne
      · cases hk
        exact hj
      · cases hk
    | _ => exact absurd (hframe.latch rfl) hne
  case delay =>
    intro hne
    cases i with
    | ldDtVx x => exact ⟨x, rfl⟩
    | _ => exact absurd (hframe.delay rfl) hne
  case sound =>
    intro hne
    cases i with
    | ldStVx x => exact ⟨x, rfl⟩
    | _ => exact absurd (hframe.sound rfl) hne

end Sys2Proof
end

section
/-! PROOFS. The step by its fetched word (spec/30_encoding.md R103, R104), and the host's calls, frames and reset
(spec/60_exceptions.md R300–R307, spec/70_reset_and_hazards.md R380). -/

namespace Sys2Proof.Machine

/-! ### A step by the word it fetches -/

theorem wordOfBytes_eq_ofNat (hi lo : Byte) : wordOfBytes hi lo = BitVec.ofNat 16 (256 * hi.toNat + lo.toNat) := by
  rw [← wordOfBytes_toNat, BitVec.ofNat_toNat, BitVec.setWidth_eq]

theorem step_of_pc_le {s : State} (hrun : s.halt = none) (hpc : s.pc.toNat + 1 ≤ 0xFFF) :
    step s = runWord (wordOfBytes (s.byteAt s.pc.toNat) (s.byteAt (s.pc.toNat + 1))) s := by
  rcases s.fetch_cases with ⟨hfetch, _⟩ | ⟨_, hout⟩
  · simp [step, cycle, hrun, hfetch]
  · omega

theorem step_of_pc_gt {s : State} (hrun : s.halt = none) (hpc : s.pc.toNat + 1 > 0xFFF) :
    step s = raise .fetchOutOfBounds none (some (max s.pc.toNat 0x1000)) s := by
  rcases s.fetch_cases with ⟨_, hin⟩ | ⟨hfetch, _⟩
  · omega
  · simp [step, cycle, hrun, hfetch]

theorem runWord_of_decode {w : Word} {i : Instr} (h : decode w = .ok i) (s : State) : runWord w s = exec i s := by
  rw [runWord, h]

theorem runWord_of_illegal {w : Word} (h : ∀ r ∈ opcodeTable, r.matches w = false) (s : State) :
    runWord w s = raise .invalidOpcode (some w) none s := by
  cases hdecode : decode w with
  | error e => rw [runWord, hdecode]
  | ok i =>
    have hrow := h (rowOf i) (rowOf_mem_opcodeTable i)
    rw [rowOf_matches_of_decode hdecode] at hrow
    cases hrow

/-! ### What each call answers -/

theorem call_step {s t : State} (h : step s = .next t) : call .step s = (.report t.halt, t) := by
  rw [call, h, settleRun]

theorem call_runFrame {s t : State} (h : runFrame s = .next t) : call .runFrame s = (.report t.halt, t) := by
  rw [call, h, settleRun]

/-- The state after a load that succeeds. -/
def State.loaded (s : State) (bytes : List Byte) : State :=
  { s.storeBytes loadBase bytes with pc := 0x200, halt := none }

theorem load_cases (s : State) (bytes : List Byte) :
    (bytes.length ≤ 3584 ∧ load bytes s = .ok (s.loaded bytes)) ∨
    (bytes.length > 3584 ∧ load bytes s = .error .programTooLarge) := by
  unfold load loadBase memSize
  by_cases h : bytes.length ≤ 3584
  · exact .inl ⟨h, if_neg (by omega)⟩
  · exact .inr ⟨by omega, if_pos (by omega)⟩

theorem call_load_cases (s : State) (bytes : List Byte) :
    (bytes.length ≤ 3584 ∧ call (.load bytes) s = (.done, s.loaded bytes)) ∨
    (bytes.length > 3584 ∧ call (.load bytes) s = (.error .programTooLarge, s)) := by
  rcases load_cases s bytes with ⟨hfits, hload⟩ | ⟨hlong, hload⟩
  · exact .inl ⟨hfits, by rw [call, hload, settleCall]⟩
  · exact .inr ⟨hlong, by rw [call, hload, settleCall]⟩

/-- The two key calls: they set the key, or are refused together. -/
theorem call_key_cases (s : State) (k : Nat) :
    (∃ h : k < 16, call (.keyDown k) s = (.done, s.setKey ⟨k, h⟩ true) ∧
      call (.keyUp k) s = (.done, s.setKey ⟨k, h⟩ false)) ∨
    (k > 15 ∧ call (.keyDown k) s = (.error .invalidKeyIndex, s) ∧
      call (.keyUp k) s = (.error .invalidKeyIndex, s)) := by
  by_cases h : k < 16
  · exact .inl ⟨h, by simp [call, keyDownCall, injectKey, h, settleCall],
      by simp [call, keyUpCall, injectKey, h, settleCall]⟩
  · exact .inr ⟨by omega, by simp [call, keyDownCall, injectKey, h, settleCall],
      by simp [call, keyUpCall, injectKey, h, settleCall]⟩

/-! ### What the calls keep -/

theorem State.Inv.tickTimers {s : State} (h : s.Inv) : s.tickTimers.Inv :=
  h.of_stack_eq ⟨rfl, rfl⟩ h.mem_wf h.pc_le

theorem State.Inv.loaded {s : State} (h : s.Inv) {bytes : List Byte} (hfits : bytes.length ≤ 3584) :
    (s.loaded bytes).Inv := by
  refine h.of_stack_eq ⟨rfl, rfl⟩ (Memory.wf_writeBytes h.mem_wf ?_) ?pc
  · simp only [loadBase, memSize]
    omega
  case pc => simp [State.loaded]

theorem construct_inv (cfg : Cfg) (font : Font) {init : InitState} (h : Memory.wf init.mem = true) :
    (construct cfg font init).Inv where
  pc_le := by simp [construct]
  returns k _ hlt := absurd hlt (Nat.not_lt_zero k)
  mem_wf := Memory.wf_writeBytes h (by simp [fontBase, memSize])

theorem call_keeps_inv {s : State} (h : s.Inv) (c : HostCall)
    (hconstruct : ∀ cfg font init, c = .construct cfg font init → Memory.wf init.mem = true) : (call c s).2.Inv := by
  cases c with
  | construct cfg font init => exact construct_inv cfg font (hconstruct cfg font init rfl)
  | load bytes =>
    rcases call_load_cases s bytes with ⟨hfits, hcall⟩ | ⟨_, hcall⟩
    all_goals rw [hcall]
    · exact h.loaded hfits
    · exact h
  | step =>
    obtain ⟨t, hstep⟩ := exists_step_next s
    rw [call_step hstep]
    exact step_keeps_inv h hstep
  | runFrame =>
    obtain ⟨t, hframe, ht⟩ := exists_runFrame_next (fun _ _ => step_keeps_inv) (fun _ => State.Inv.tickTimers) h
    rw [call_runFrame hframe]
    exact ht
  | keyDown k | keyUp k =>
    rcases call_key_cases s k with ⟨_, hdown, hup⟩ | ⟨_, hdown, hup⟩
    all_goals simp only [hdown, hup]
    · exact h.of_stack_eq ⟨rfl, rfl⟩ h.mem_wf h.pc_le
    · exact h
  | snapshot => exact h.of_stack_eq ⟨rfl, rfl⟩ h.mem_wf h.pc_le
  | isDown | isUp | isDirty | isSoundPlaying | faultReport => exact h

/-! ### Timers -/

theorem countDown_toNat (b : Byte) : (countDown b).toNat = b.toNat - 1 := by
  unfold countDown
  split
  · exact BitVec.toNat_sub_of_le (BitVec.le_def.mpr ‹0 < b.toNat›)
  · simp; omega

theorem isSoundPlaying_tickTimers (s : State) : isSoundPlaying s.tickTimers = false ↔ s.st.toNat ≤ 1 := by
  simp [isSoundPlaying, countDown_toNat]

/-! ### Memory after reset -/

theorem Memory.unlisted_font {k : Nat} (h : k < 80) : Memory.unlisted (0x050 + k) = Font.reference[k] := by
  unfold Memory.unlisted fontBase
  rw [dif_pos (by omega)]
  simp

theorem Memory.unlisted_outside {a : Nat} (h : a < 0x050 ∨ 0x0A0 ≤ a) : Memory.unlisted a = 0 := by
  unfold Memory.unlisted fontBase
  rw [dif_neg (by omega)]

/-- The reference font is what its addresses read as unlisted, so writing it lists nothing. -/
theorem Memory.writeBytes_referenceFont : Memory.writeBytes [] fontBase Font.reference.toList = [] := by
  have hfit : fontBase + Font.reference.toList.length ≤ memSize := by simp [fontBase, memSize]
  refine Memory.ext_of_wf (Memory.wf_writeBytes rfl hfit) rfl fun a => ?_
  rw [Memory.read_writeBytes rfl hfit]
  split
  next h =>
    have h' : fontBase ≤ a ∧ a - fontBase < 80 := by simpa using h
    simp [Memory.read, Memory.unlisted, h']
  next => rfl

end Sys2Proof.Machine

namespace Sys2Proof

open Machine

/-! ### Steps -/

/-- Settles O6: the word is the two bytes at PC, high byte first. -/
theorem stepRunsTheDecodedInstruction : Obligations.StepRunsTheDecodedInstruction := by
  intro s i hrun hpc hdecode
  rw [← wordOfBytes_eq_ofNat] at hdecode
  rw [step_of_pc_le hrun hpc, runWord_of_decode hdecode]

/-- Settles O7: the fetch fails before any byte is read. -/
theorem fetchOutOfBoundsRaises : Obligations.FetchOutOfBoundsRaises := fun _ => step_of_pc_gt

/-- Settles O8: a word that decodes would match its instruction's row. -/
theorem illegalWordRaisesInvalidOpcode : Obligations.IllegalWordRaisesInvalidOpcode := by
  intro s w hrun hpc hw hrows
  have hword : wordOfBytes (s.byteAt s.pc.toNat) (s.byteAt (s.pc.toNat + 1)) = w :=
    BitVec.eq_of_toNat_eq (by rw [wordOfBytes_toNat, hw])
  rw [step_of_pc_le hrun hpc, hword]
  exact runWord_of_illegal hrows s

/-- Settles O9: on a halted core neither the step nor the tick of a frame happens. -/
theorem haltedCoreDoesNothing : Obligations.HaltedCoreDoesNothing := by
  intro s r hhalt
  have hne : s.halt ≠ none := by simp [hhalt]
  exact ⟨hhalt ▸ call_step (step_of_halted hne), hhalt ▸ call_runFrame (runFrame_of_halted hne)⟩

/-- Settles O24: PC is the only write; at its own address it is no write, and 0xFFF is the last byte of memory. -/
theorem jumpSetsPc : Obligations.JumpSetsPc := by
  intro s nnn
  refine ⟨⟨_, rfl, zext16_toNat nnn, (Unchanged.refl _ s).advance.setPc _, ?fault⟩, ?fixed⟩
  case fault =>
    intro hrun hnnn
    have hpc : (s.advance.setPc (zext16 nnn)).pc.toNat = 0xFFF := (zext16_toNat nnn).trans hnnn
    have hstep := step_of_pc_gt (s := s.advance.setPc (zext16 nnn)) hrun (by rw [hpc]; decide)
    rwa [hpc] at hstep
  case fixed =>
    intro hself
    have hpc : zext16 nnn = s.pc := BitVec.eq_of_toNat_eq ((zext16_toNat nnn).trans hself)
    change Host.Outcome.next { s with pc := zext16 nnn } = .next s
    rw [hpc]

/-! ### Host calls -/

/-- Settles O15, by induction on the calls: each call keeps the invariant. -/
theorem hostCallsKeepTheInvariant : Obligations.HostCallsKeepTheInvariant := by
  intro s cs
  induction cs generalizing s with
  | nil => exact fun hinv _ => hinv
  | cons c cs ih =>
    intro hinv hconstruct
    refine ih _ (call_keeps_inv hinv c fun cfg font init hc => ?_) fun cfg font init hmem => ?_
    · exact hconstruct cfg font init (hc ▸ List.mem_cons_self)
    · exact hconstruct cfg font init (List.mem_cons_of_mem c hmem)

/-- Settles O16: no step writes the configuration, so no frame does, and no other call touches it. -/
theorem configurationNeverChanges : Obligations.ConfigurationNeverChanges := by
  intro s c hc
  cases c with
  | construct cfg font init => exact absurd rfl (hc cfg font init)
  | load bytes =>
    rcases call_load_cases s bytes with ⟨_, hcall⟩ | ⟨_, hcall⟩
    all_goals rw [hcall]
    rfl
  | step =>
    obtain ⟨t, hstep⟩ := exists_step_next s
    rw [call_step hstep]
    exact step_cfg hstep
  | runFrame =>
    obtain ⟨t, hframe, ht⟩ := exists_runFrame_next (P := fun u => u.cfg = s.cfg)
      (fun _ _ hu hstep => (step_cfg hstep).trans hu) (fun _ hu => hu) rfl
    rw [call_runFrame hframe]
    exact ht
  | keyDown k | keyUp k =>
    rcases call_key_cases s k with ⟨_, hdown, hup⟩ | ⟨_, hdown, hup⟩
    all_goals simp only [hdown, hup, State.setKey_cfg]
  | snapshot | isDown | isUp | isDirty | isSoundPlaying | faultReport => rfl

/-- Settles O17: a halted core's steps and frames do nothing, a refused load too, and no other call touches HALT. -/
theorem haltIsStickyUntilLoad : Obligations.HaltIsStickyUntilLoad := by
  intro s c r hhalt hchanged
  have hne : s.halt ≠ none := by simp [hhalt]
  cases c with
  | construct cfg font init => exact .inl ⟨cfg, font, init, rfl⟩
  | load bytes =>
    rcases call_load_cases s bytes with ⟨hfits, _⟩ | ⟨_, hcall⟩
    · exact .inr ⟨bytes, rfl, hfits⟩
    · exact absurd (by rw [hcall, hhalt]) hchanged
  | step => exact absurd (by rw [call_step (step_of_halted hne), hhalt]) hchanged
  | runFrame => exact absurd (by rw [call_runFrame (runFrame_of_halted hne), hhalt]) hchanged
  | keyDown k | keyUp k =>
    rcases call_key_cases s k with ⟨_, hdown, hup⟩ | ⟨_, hdown, hup⟩
    all_goals exact absurd (by simp only [hdown, hup, State.setKey_halt, hhalt]) hchanged
  | snapshot | isDown | isUp | isDirty | isSoundPlaying | faultReport => exact absurd hhalt hchanged

/-- Settles O56: only the three calls that may be refused reply with an error, and a refusal keeps the state. -/
theorem hostErrorsChangeNothing : Obligations.HostErrorsChangeNothing := by
  intro s t c e h
  cases c with
  | load bytes =>
    rcases call_load_cases s bytes with ⟨_, hcall⟩ | ⟨_, hcall⟩
    all_goals
      rw [hcall] at h
      cases h
    exact ⟨rfl, .inl ⟨bytes, rfl, rfl⟩⟩
  | keyDown k =>
    rcases call_key_cases s k with ⟨_, hdown, _⟩ | ⟨_, hdown, _⟩
    all_goals
      rw [hdown] at h
      cases h
    exact ⟨rfl, .inr ⟨k, .inl rfl, rfl⟩⟩
  | keyUp k =>
    rcases call_key_cases s k with ⟨_, _, hup⟩ | ⟨_, _, hup⟩
    all_goals
      rw [hup] at h
      cases h
    exact ⟨rfl, .inr ⟨k, .inr rfl, rfl⟩⟩
  | step =>
    obtain ⟨u, hstep⟩ := exists_step_next s
    rw [call_step hstep] at h
    cases h
  | runFrame =>
    obtain ⟨u, hframe, _⟩ := exists_runFrame_next (P := fun _ => True) (fun _ _ _ _ => trivial) (fun _ _ => trivial)
      (s := s) trivial
    rw [call_runFrame hframe] at h
    cases h
  | construct | snapshot | isDown | isUp | isDirty | isSoundPlaying | faultReport => cases h

/-- Settles O52: the state the steps begin in is the tick of the timers. -/
theorem frameTicksThenSteps : Obligations.FrameTicksThenSteps := fun s hrun =>
  ⟨s.tickTimers, countDown_toNat s.dt, countDown_toNat s.st, rfl, runFrame_of_running hrun⟩

/-- Settles O53, by the two cases of a load: the program is one stored range. -/
theorem loadPlacesTheProgram : Obligations.LoadPlacesTheProgram := by
  intro s bytes hmem
  rcases load_cases s bytes with ⟨hfits, hload⟩ | ⟨hlong, hload⟩
  · refine ⟨fun _ => ⟨_, hload, ?program, ?others, rfl, rfl, rfl⟩, fun h => absurd h (by omega)⟩
    case program =>
      intro k hk
      exact State.storeBytes_byteAt_add hmem (by simp only [loadBase, memSize]; omega) hk
    case others =>
      intro a ha
      exact Memory.read_writeBytes_of_outside bytes s.mem loadBase ha
  · exact ⟨fun h => absurd h (by omega), fun _ => hload⟩

/-- Settles O54, by the two cases of a key call. -/
theorem keyCallsSetOneKey : Obligations.KeyCallsSetOneKey := by
  intro s k
  rcases call_key_cases s k with ⟨hk, hdown, hup⟩ | ⟨hbig, hdown, hup⟩
  · refine ⟨fun h => ⟨_, _, hdown, hup, ?down, ?up, ?others, rfl, rfl⟩, fun h => absurd h (by omega)⟩
    case down => rw [State.setKey_keyDown, if_pos rfl]
    case up => rw [State.setKey_keyDown, if_pos rfl]
    case others =>
      intro j hj
      have hne : j ≠ ⟨k, hk⟩ := fun h => hj (congrArg Fin.val h)
      simp only [State.setKey_keyDown, if_neg hne, and_self]
  · exact ⟨fun h => absurd h (by omega), fun _ => ⟨hdown, hup⟩⟩

/-- Settles O55: the sound plays while ST is not 0, and the tick that opens a frame takes 1 to 0. -/
theorem soundPlaysWhileTimerRuns : Obligations.SoundPlaysWhileTimerRuns := by
  refine ⟨fun s => ?answer, fun s hrun => ⟨runFrame_of_running hrun, isSoundPlaying_tickTimers s⟩, ?emptyFrame⟩
  case answer =>
    rw [← isSoundPlaying_iff]
    simp [call]
  case emptyFrame =>
    intro s t hrun hslots hframe
    rw [runFrame_of_running hrun, hslots] at hframe
    cases hframe
    exact isSoundPlaying_tickTimers s

/-- Settles O57: the font is one stored range, and the reference font in empty memory lists no byte. -/
theorem constructSetsTheResetState : Obligations.ConstructSetsTheResetState := by
  constructor
  case left =>
    rintro cfg font init s hmem rfl
    have hlen : font.toList.length = 80 := by simp
    have hfit : fontBase + font.toList.length ≤ memSize := by simp [fontBase, memSize]
    refine ⟨rfl, rfl, rfl, rfl, ?font, ?others, rfl, rfl, rfl, rfl, rfl, rfl, rfl, rfl, rfl⟩
    case font =>
      intro k hk
      have hread := Memory.read_writeBytes hmem hfit (fontBase + k)
      rw [dif_pos (by omega)] at hread
      exact hread.trans (by simp)
    case others =>
      intro a ha
      exact Memory.read_writeBytes_of_outside _ _ _ (by rw [hlen]; exact ha)
  case right =>
    change { State.reset with mem := Memory.writeBytes [] fontBase Font.reference.toList } = State.reset
    rw [Memory.writeBytes_referenceFont]
    rfl

/-- Settles O58: the fields are literals, and memory lists nothing, so that every byte is as unlisted. -/
theorem resetValues : Obligations.ResetValues := by
  refine ⟨?regs, rfl, rfl, rfl, ?stack, rfl, rfl, fun k hk => Memory.unlisted_font hk,
    fun a ha => Memory.unlisted_outside ha, Framebuffer.blank_pixel, rfl, ?keys, rfl, rfl, rfl, rfl, rfl, rfl⟩
  case regs => simp [State.reg, State.reset]
  case stack => simp [State.reset]
  case keys => simp [State.keyDown, State.reset]

/-- Settles O59: the snapshot writes DIRTY alone, and the other four write nothing. -/
theorem snapshotClearsDirtyAndPeeksChangeNothing : Obligations.SnapshotClearsDirtyAndPeeksChangeNothing := fun s =>
  ⟨⟨s.fb, { s with dirty := false }, rfl, fun _ _ => rfl, rfl, rfl, rfl⟩, rfl, fun _ => ⟨rfl, rfl⟩, rfl⟩

end Sys2Proof
end

section
/-! PROOFS. Single instructions and pairs of them: the aliased flag (spec/42_alu.md R164, R165), checked ranges
(spec/20_memory.md R66), a store and the load or fetch after it, a call and its return, key skips and drawing. -/

namespace Sys2Proof.Machine

/-- Two effects inside one frame, one after the other. -/
theorem Unchanged.trans {w : Writes} {s t u : State} (h : Unchanged w s t) (k : Unchanged w t u) : Unchanged w s u where
  regs r hr := (k.regs r hr).trans (h.regs r hr)
  index hw := (k.index hw).trans (h.index hw)
  stack hw := ⟨(k.stack hw).1.trans (h.stack hw).1, (k.stack hw).2.trans (h.stack hw).2⟩
  delay hw := (k.delay hw).trans (h.delay hw)
  sound hw := (k.sound hw).trans (h.sound hw)
  bytes a ha := (k.bytes a ha).trans (h.bytes a ha)
  screen hw := ⟨(k.screen hw).1.trans (h.screen hw).1, (k.screen hw).2.trans (h.screen hw).2⟩
  keys := k.keys.trans h.keys
  latch hw := (k.latch hw).trans (h.latch hw)
  halt := k.halt.trans h.halt
  cfg := k.cfg.trans h.cfg
  fresh hw := (k.fresh hw).trans (h.fresh hw)

/-! ### VF as the target of its own flag -/

/-- A result and a flag both written to VF: one of the two stands, and the model's counter advances. -/
theorem completes_of_exec_writeResultFlag_regF {i : Instr} {s : State} {b f : Byte} {m n : Nat} (hf : f.toNat = m)
    (hb : b.toNat = n) (h : exec i s = .next (s.advance.writeResultFlag regF b f)) :
    Completes i s fun t => ((t.reg regF).toNat = m ∨ (t.reg regF).toNat = n) ∧ pcMoved 2 s t ∧
      Unchanged { regs := onlyReg regF, fresh := true } s t := by
  rcases s.advance.writeResultFlag_cases regF b f with ⟨hne, _⟩ | ⟨_, c, hc, hwrite⟩
  · exact absurd rfl hne
  · obtain ⟨t, hexec, hreg, _, hpc, hframe⟩ := completes_of_exec_setReg_useFresh (hwrite ▸ h)
    refine ⟨t, hexec, ?_, hpc, hframe⟩
    rw [hreg, ← hf, ← hb]
    exact hc.imp (congrArg _) (congrArg _)

/-- The same for a shift, with its three admitted readings. -/
theorem completes_of_exec_writeShiftFlag_regF {i : Instr} {s : State} {shift : Byte → Byte} {v f : Byte} {l m n : Nat}
    (hin : (shift f).toNat = l) (hb : (shift v).toNat = m) (hf : f.toNat = n)
    (h : exec i s = .next (s.advance.writeShiftFlag regF shift v f)) :
    Completes i s fun t => ((t.reg regF).toNat = l ∨ (t.reg regF).toNat = m ∨ (t.reg regF).toNat = n) ∧
      pcMoved 2 s t ∧ Unchanged { regs := onlyReg regF, fresh := true } s t := by
  rcases s.advance.writeShiftFlag_cases regF shift v f with ⟨hne, _⟩ | ⟨_, c, hc, hwrite⟩
  · exact absurd rfl hne
  · obtain ⟨t, hexec, hreg, _, hpc, hframe⟩ := completes_of_exec_setReg_useFresh (hwrite ▸ h)
    refine ⟨t, hexec, ?_, hpc, hframe⟩
    rw [hreg, ← hin, ← hb, ← hf]
    exact hc.imp (congrArg _) (Or.imp (congrArg _) (congrArg _))

/-- A flag shifted right is 0. -/
theorem shiftRight_flagByte (b : Bool) : (shiftRight (flagByte b)).toNat = 0 := by
  cases b <;> rfl

/-- A flag shifted left is twice the flag. -/
theorem shiftLeft_flagByte (b : Bool) : (shiftLeft (flagByte b)).toNat = 2 * (flagByte b).toNat := by
  cases b <;> rfl

/-! ### Ranges that leave memory -/

/-- The lowest address of a range that is above 0xFFF. -/
theorem eq_max_of_lowest {base len a : Nat} (hlo : base ≤ a) (hhi : a < base + len) (hout : a > 0xFFF)
    (hlow : ∀ b, base ≤ b → b < a → b ≤ 0xFFF) : a = max base 0x1000 ∧ base + (len - 1) > 0xFFF ∧ 0 < len := by
  have hprev := hlow (a - 1)
  omega

theorem hostWrite_of_outside {address : Nat} {bytes : List Byte} {k : Nat} (hk : k < max bytes.length 1)
    (hout : address + k > 0xFFF) (s : State) : hostWrite address bytes s = .error .badAddress :=
  if_pos (by simp only [memSize]; omega)

/-! ### Words as numbers -/

theorem encode_drw (x y : Reg) (n : BitVec 4) :
    encode (.drw x y n) = BitVec.ofNat 16 (0xD000 + 0x100 * x.val + 0x10 * y.val + n.toNat) := by
  apply BitVec.eq_of_toNat_eq
  rw [encode, wordXYN_toNat, BitVec.toNat_ofNat]
  have hop : (0xD : BitVec 4).toNat = 13 := rfl
  omega

/-! ### Drawing -/

/-- A coordinate is V[x], or 0 where it is VF itself (spec/44_display.md R253). -/
theorem State.coordinate_mod (s : State) (x : Reg) (afterReset : Bool) (m : Nat) :
    (s.coordinate x afterReset).toNat % m = (s.reg x).toNat % m ∨
    (x = regF ∧ (s.coordinate x afterReset).toNat % m = 0) := by
  unfold State.coordinate
  split
  next h => exact .inr ⟨h.1, by simp⟩
  next => exact .inl rfl

/-- The sprite's bits, with rows counted from 0, are the statement's. -/
theorem spriteBits_eq_spriteBit (s : State) (c r n px py : Nat) :
    spriteBits s.byteAt c r s.indexBase 0 n px py = s.spriteBit c r n px py := by
  have hrange : (r + 0 ≤ py ∧ py < r + 0 + n ∧ c ≤ px ∧ px < c + 8) ↔ (c ≤ px ∧ px < c + 8 ∧ r ≤ py ∧ py < r + n) := by
    omega
  simp only [spriteBits, State.spriteBit, hrange, State.indexBase]

theorem State.setCollision_regF {r : State × Bool} (h : r.1.reg regF = 0) :
    (State.setCollision r).reg regF = if r.2 then 1 else 0 := by
  unfold State.setCollision
  split
  · exact State.setReg_reg_self ..
  · exact h

theorem Drawn.reg_eq {bits : Nat → Nat → Bool} {s : State} {hit : Bool} {r : State × Bool} (d : Drawn bits s hit r)
    (x : Reg) : r.1.reg x = s.reg x :=
  (congrArg (State.reg · x) d.frame :)

end Sys2Proof.Machine

namespace Sys2Proof

open Machine

/-- Settles O38: the sum is BitVec's own, and VF is in the frame. -/
theorem addToIndexWraps : Obligations.AddToIndexWraps := fun s x =>
  completes_of_exec_setI (by rw [BitVec.toNat_add, byteToWord_toNat]) rfl

/-- Settles O26: RET pops the entry CALL pushed, at the SP that CALL left one higher. -/
theorem callThenReturnComesBack : Obligations.CallThenReturnComesBack := by
  intro s nnn hroom
  obtain ⟨t, hcall, hpushed, hothers, hspt, _, hframet⟩ := (callPushesTheReturnAddress s nnn).1 hroom
  obtain ⟨u, hret, hspu, hstack, hpc, hframeu⟩ := (returnPopsTheStack t).1 (by omega)
  refine ⟨t, u, hcall, hret, ?pc, Fin.ext (by omega), ?entries, ?frame⟩
  case pc =>
    have htop : t.sp.val - 1 = s.sp.val := by omega
    simp only [htop] at hpc
    rw [pcMoved, hpc]
    exact hpushed ⟨s.sp.val, hroom⟩ rfl
  case entries =>
    intro k hk
    rw [hstack]
    exact hothers k hk
  case frame => exact hframet.trans hframeu

/-- Settles O34: each is the one lemma on a flag written to its own operand. -/
theorem aliasedFlagIsFlagOrResult : Obligations.AliasedFlagIsFlagOrResult := by
  intro s y
  refine ⟨?add, ?sub, ?subn⟩
  case add => exact completes_of_exec_writeResultFlag_regF (carry_flag _ _) (addBytes_toNat _ _) rfl
  case sub => exact completes_of_exec_writeResultFlag_regF (noBorrow_flag _ _) (subBytes_toNat _ _) rfl
  case subn => exact completes_of_exec_writeResultFlag_regF (noBorrow_flag _ _) (subBytes_toNat _ _) rfl

/-- Settles O35: v is the model's shift operand; the flag shifted in place is 0 to the right, doubled to the left. -/
theorem aliasedFlagOfShifts : Obligations.AliasedFlagOfShifts := by
  intro s y v hv
  have hoperand : v = (s.shiftOperand regF y).toNat := hv
  subst hoperand
  constructor
  case left =>
    exact completes_of_exec_writeShiftFlag_regF (shiftRight_flagByte _) (shiftRight_toNat _) (lowBit_flag _) rfl
  case right =>
    refine completes_of_exec_writeShiftFlag_regF ?_ (shiftLeft_toNat _) (highBit_flag _) rfl
    rw [shiftLeft_flagByte, highBit_flag]

/-- Settles O42: each of the four raises where its range check finds the lowest address outside. -/
theorem rangeIsCheckedBeforeAnything : Obligations.RangeIsCheckedBeforeAnything := by
  constructor
  case left =>
    intro s i len a hi hlo hhi hout hlow
    obtain ⟨rfl, hlast, hlen⟩ := eq_max_of_lowest hlo hhi hout hlow
    change s.indexBase + (len - 1) > 0xFFF at hlast
    rcases hi with ⟨x, y, n, rfl, rfl⟩ | ⟨x, rfl, rfl⟩ | ⟨x, rfl | rfl, rfl⟩
    · rcases exec_drw_cases s x y n with ⟨hin, _⟩ | ⟨_, _, hexec⟩
      · omega
      · exact ⟨_, hexec, by simp, by simp⟩
    · rcases exec_ldB_cases s x with ⟨hin, _⟩ | ⟨_, hexec⟩
      · omega
      · exact ⟨_, hexec, by simp, by simp⟩
    · rcases exec_ldMemVx_cases s x with ⟨hin, _⟩ | ⟨_, hexec⟩
      · omega
      · exact ⟨_, hexec, by simp, by simp⟩
    · rcases exec_ldVxMem_cases s x with ⟨hin, _⟩ | ⟨_, hexec⟩
      · omega
      · exact ⟨_, hexec, by simp, by simp⟩
  case right => exact fun s _ _ _ hk hout => hostWrite_of_outside hk hout s

/-- Settles O43: the load reads the addresses the store wrote, in the same memory and from the same I. -/
theorem storeThenLoadRestoresRegisters : Obligations.StoreThenLoadRestoresRegisters := by
  intro s t u x hmem hin hstore hsame hindex
  obtain ⟨t', hexec, hbytes, _⟩ := (blockStoreWritesRegisters s x hmem).1 hin
  rw [hexec] at hstore
  cases hstore
  have hbase : u.indexBase = s.indexBase := congrArg BitVec.toNat hindex
  obtain ⟨v, hload, hregs, _⟩ := (blockLoadReadsRegisters u x).1 (by omega)
  refine ⟨v, hload, fun k hk => ?_⟩
  rw [hregs k hk, hbase, ← hbytes k hk, State.byteAt, State.byteAt, hsame]

/-- Settles O44: both bytes of the fetch are in the stored range, so below 0x1000. -/
theorem storedBytesAreFetched : Obligations.StoredBytesAreFetched := by
  intro s t x k h hmem hin hk hstore
  obtain ⟨t', hexec, hbytes, _⟩ := (blockStoreWritesRegisters s x hmem).1 hin
  rw [hexec] at hstore
  cases hstore
  have hx := x.isLt
  have hpc : (t.setPc (BitVec.ofNat 16 (s.indexBase + k))).pc.toNat = s.indexBase + k := by
    rw [State.setPc_pc, BitVec.toNat_ofNat]
    omega
  rcases (t.setPc (BitVec.ofNat 16 (s.indexBase + k))).fetch_cases with ⟨hfetch, _⟩ | ⟨_, hout⟩
  · refine ⟨_, hfetch, ?_⟩
    rw [wordOfBytes_toNat, hpc, State.setPc_byteAt, State.setPc_byteAt]
    rw [hbytes ⟨k, by omega⟩ (Fin.le_def.mpr (by simp; omega)), Nat.add_assoc, hbytes ⟨k + 1, h⟩ hk]
  · omega

/-- Settles O48, by the two cases of the range check: the rows toggle the sprite's bits inside the grid, each once. -/
theorem drawSpriteIsXorWithCollision : Obligations.DrawSpriteIsXorWithCollision := by
  intro s x y n
  rcases exec_drw_cases s x y n with ⟨hin, r, hdrawn, hexec⟩ | ⟨hrows, hout, hexec⟩
  · refine ⟨fun _ => ⟨s.spriteColumn x, s.spriteRow y, s.coordinate_mod x _ _, s.coordinate_mod y _ _, _, hexec, ?_⟩,
      fun hrows hout => absurd hout (by unfold State.indexBase at hin; omega)⟩
    replace hdrawn := hdrawn.congr fun px py _ _ =>
      spriteBits_eq_spriteBit s (s.spriteColumn x) (s.spriteRow y) n.toNat px py
    have hVF : (State.setCollision r).reg regF = if r.2 then 1 else 0 :=
      State.setCollision_regF ((hdrawn.reg_eq regF).trans (State.setReg_reg_self ..))
    have hpixel (px py : Nat) : (s.drawStart x y).pixel px py = s.pixel px py := by simp [State.drawStart]
    have hdirty : (s.drawStart x y).dirty = s.dirty := by simp [State.drawStart]
    refine ⟨?pixels, ?flagValues, ?flag, ?dirty, ?pc, ?frame⟩
    case pixels =>
      intro px py hx hy
      rw [State.setCollision_pixel, hdrawn.pixel px py hx hy, hpixel]
    case flagValues =>
      rw [hVF]
      cases r.2 <;> simp
    case flag =>
      have hhit := hdrawn.hit
      simp only [hpixel, Bool.false_eq_true, false_or] at hhit
      rw [hVF, ← hhit]
      cases r.2 <;> simp
    case dirty => rw [State.setCollision_dirty, hdrawn.dirty, hdirty]
    case pc =>
      rw [pcMoved, State.setCollision_pc, hdrawn.pc_eq]
      simp [State.drawStart]
    case frame => exact unchanged_drw hdrawn rfl rfl fun h => decide_eq_true h
  · refine ⟨fun h => ?_, fun _ _ => encode_drw x y n ▸ raises_of_exec_raiseBy hexec⟩
    unfold State.indexBase at hout
    omega

/-- Settles O49: both look up the key once, and skip on it or on its complement. -/
theorem keySkipsTestTheKey : Obligations.KeySkipsTestTheKey := by
  intro s x
  rcases exec_keySkip_cases s x with ⟨hbig, hskp, hsknp⟩ | ⟨j, hj, hskp, hsknp⟩
  · refine ⟨fun k hk => absurd hbig (by omega), fun _ => ⟨?_, ?_⟩⟩
    · exact wordXNN_eq_ofNat 0xE x 0x9E ▸ raises_of_exec_raiseBy hskp
    · exact wordXNN_eq_ofNat 0xE x 0xA1 ▸ raises_of_exec_raiseBy hsknp
  · refine ⟨fun k hk => ?_, fun h => absurd h (by omega)⟩
    obtain rfl : j = k := Fin.ext (hj.symm.trans hk)
    exact ⟨completes_of_exec_skipIf hskp, by
      simpa only [Bool.not_eq_true', ← Bool.not_eq_true, ite_not] using completes_of_exec_skipIf hsknp⟩

end Sys2Proof
end
